-- ==== Sys2Proof/Word.lean ====
section
/-! DEFINITION. The 16-bit word: the one unit of registers, memory cells, addresses and instructions
(spec/10_state.md R10, R14; spec/20_memory.md R31; spec/30_encoding.md R50). -/

namespace Sys2Proof

/-- A 16-bit value with no inherent sign (R4): a register, a memory cell, an address, an instruction. -/
abbrev Word := BitVec 16

/-- The number of words of each address space: 2^16 (R30, R33). -/
abbrev spaceSize : Nat := 65536

end Sys2Proof
end

