-- ==== Sys2Proof/Syntax.lean ====
section
/-! DEFINITION. The instructions: one constructor per row of spec/opcode_table.json, in its order
(spec/30_encoding.md R60, R76). Operand types have exactly the widths of the encoding's fields (R51, R67 to R73). -/

namespace Sys2Proof

/-- The eight general registers R0 to R7 (R10). All are ordinary; none reads as zero (R11). -/
inductive Reg
  | r0 | r1 | r2 | r3 | r4 | r5 | r6 | r7
deriving DecidableEq, Repr

/-- The 35 instructions. Rd, Ra, Rb stand in the order of the Syntax column (R76).
PUSH and POP carry the fields L and Ra of format E (R58, R64): with `link = true` the operand is LR and
the Ra field is unused (R62, R79). -/
inductive Instr
  | add (rd ra rb : Reg)
  | addi (rd ra : Reg) (imm5 : BitVec 5)
  | addib (rd : Reg) (imm8 : BitVec 8)
  | adc (rd ra rb : Reg)
  | adci (rd ra : Reg) (imm5 : BitVec 5)
  | neg (rd : Reg)
  | sub (rd ra rb : Reg)
  | subi (rd ra : Reg) (imm5 : BitVec 5)
  | subib (rd : Reg) (imm8 : BitVec 8)
  | suc (rd ra rb : Reg)
  | suci (rd ra : Reg) (imm5 : BitVec 5)
  | cmp (ra rb : Reg)
  | and (rd ra rb : Reg)
  | or (rd ra rb : Reg)
  | xor (rd ra rb : Reg)
  | not (rd ra : Reg)
  | nand (rd ra rb : Reg)
  | nor (rd ra rb : Reg)
  | lsl (rd ra : Reg) (imm4 : BitVec 4)
  | lsr (rd ra : Reg) (imm4 : BitVec 4)
  | asr (rd ra : Reg) (imm4 : BitVec 4)
  | ldw (rd ra : Reg) (imm5 : BitVec 5)
  | stw (rd ra : Reg) (imm5 : BitVec 5)
  | lui (rd : Reg) (imm8 : BitVec 8)
  | lli (rd : Reg) (imm8 : BitVec 8)
  | br (imm8 : BitVec 8)
  | bne (imm8 : BitVec 8)
  | be (imm8 : BitVec 8)
  | blt (imm8 : BitVec 8)
  | bge (imm8 : BitVec 8)
  | bwl (imm8 : BitVec 8)
  | ret
  | jmp (ra : Reg) (imm5 : BitVec 5)
  | push (link : Bool) (ra : Reg)
  | pop (link : Bool) (ra : Reg)
deriving DecidableEq, Repr

end Sys2Proof
end

