-- ==== Sys2Proof/WellFormed.lean ====
section
/-! DEFINITION. Well-formed instructions. Every operand type has exactly its field's width, so the ranges of
spec/30_encoding.md R77 hold by typing. One check is left: `PUSH LR` and `POP LR` name no general register, and
their unused Ra field is 0 (R79, R81; notes/assumptions/24.md). -/

namespace Sys2Proof

/-- A stack operand is well formed when its Ra field is 0 wherever L = 1 makes that field unused (R62, R79). -/
def stackOperandWf (link : Bool) (ra : Reg) : Bool := !link || decide (ra = .r0)

/-- The instruction has exactly one canonical word (R81). -/
def Instr.wf : Instr → Bool
  | .add _ _ _ => true
  | .addi _ _ _ => true
  | .addib _ _ => true
  | .adc _ _ _ => true
  | .adci _ _ _ => true
  | .neg _ => true
  | .sub _ _ _ => true
  | .subi _ _ _ => true
  | .subib _ _ => true
  | .suc _ _ _ => true
  | .suci _ _ _ => true
  | .cmp _ _ => true
  | .and _ _ _ => true
  | .or _ _ _ => true
  | .xor _ _ _ => true
  | .not _ _ => true
  | .nand _ _ _ => true
  | .nor _ _ _ => true
  | .lsl _ _ _ => true
  | .lsr _ _ _ => true
  | .asr _ _ _ => true
  | .ldw _ _ _ => true
  | .stw _ _ _ => true
  | .lui _ _ => true
  | .lli _ _ => true
  | .br _ => true
  | .bne _ => true
  | .be _ => true
  | .blt _ => true
  | .bge _ => true
  | .bwl _ => true
  | .ret => true
  | .jmp _ _ => true
  | .push link ra => stackOperandWf link ra
  | .pop link ra => stackOperandWf link ra

end Sys2Proof
end

