-- ==== Sys2Proof/Decode.lean ====
section
/-! DEFINITION. Decoding and encoding (spec/30_encoding.md). The decoder is total on words and names what it rejects;
the encoder writes the canonical word (R81); `unusedBits` is the table of R62. -/

namespace Sys2Proof

/-- Why a word is no instruction: its primary opcode is one of the five unassigned ones (R61). -/
inductive DecodeError
  | unassignedOpcode (op : BitVec 5)
deriving DecidableEq, Repr

/-- Field value `k` selects `Rk` (R10, decision D1). -/
def Reg.ofBits (k : BitVec 3) : Reg :=
  match k.toNat with
  | 0 => .r0
  | 1 => .r1
  | 2 => .r2
  | 3 => .r3
  | 4 => .r4
  | 5 => .r5
  | 6 => .r6
  | _ => .r7

/-- The field value that selects the register (R10). -/
def Reg.bits : Reg → BitVec 3
  | .r0 => 0
  | .r1 => 1
  | .r2 => 2
  | .r3 => 3
  | .r4 => 4
  | .r5 => 5
  | .r6 => 6
  | .r7 => 7

/-- `w[15:11]`, the primary opcode of every format (R51). -/
def opcodeField (w : Word) : BitVec 5 := w.extractLsb' 11 5

/-- `w[10:8]`, the condition field of format D (R51, R63). -/
def condField (w : Word) : BitVec 3 := w.extractLsb' 8 3

/-- `w[10:8]` as the register Rd (R51). -/
def rdField (w : Word) : Reg := .ofBits (w.extractLsb' 8 3)

/-- `w[7:5]` as the register Ra (R51). -/
def raField (w : Word) : Reg := .ofBits (w.extractLsb' 5 3)

/-- `w[4:2]` as the register Rb (R51). -/
def rbField (w : Word) : Reg := .ofBits (w.extractLsb' 2 3)

/-- `w[3:0]`, the shift amount (R67). -/
def imm4Field (w : Word) : BitVec 4 := w.extractLsb' 0 4

/-- `w[4:0]` (R51). -/
def imm5Field (w : Word) : BitVec 5 := w.extractLsb' 0 5

/-- `w[7:0]` (R51). -/
def imm8Field (w : Word) : BitVec 8 := w.extractLsb' 0 8

/-- U = `w[10]`: 1 is PUSH, 0 is POP (R58). -/
def uField (w : Word) : Bool := w.getLsbD 10

/-- L = `w[9]`: 1 uses the link register (R58). -/
def lField (w : Word) : Bool := w.getLsbD 9

/-- The Ra operand of format E: the field, or R0 where L = 1 makes the field unused (R62, R79). -/
def stackRa (w : Word) : Reg := if lField w then .r0 else raField w

/-- The instruction that each value of the condition field selects under opcode 11111 (R63). -/
def decodeControl (w : Word) : Instr :=
  match (condField w).toNat with
  | 0b000 => .br (imm8Field w)
  | 0b001 => .jmp (raField w) (imm5Field w)
  | 0b010 => .ret
  | 0b011 => .bwl (imm8Field w)
  | 0b100 => .blt (imm8Field w)
  | 0b101 => .bge (imm8Field w)
  | 0b110 => .bne (imm8Field w)
  | _ => .be (imm8Field w)

/-- The instruction that U selects under opcode 11100 (R64). -/
def decodeStack (w : Word) : Instr :=
  if uField w then .push (lField w) (stackRa w) else .pop (lField w) (stackRa w)

/-- The decoder: the complete map of the 32 primary opcodes (R60). Unused bits are not examined (R62). -/
def decode (w : Word) : Except DecodeError Instr :=
  match (opcodeField w).toNat with
  | 0b00001 => .ok (.lsl (rdField w) (raField w) (imm4Field w))
  | 0b00010 => .ok (.lsr (rdField w) (raField w) (imm4Field w))
  | 0b00011 => .ok (.asr (rdField w) (raField w) (imm4Field w))
  | 0b00100 => .ok (.add (rdField w) (raField w) (rbField w))
  | 0b00101 => .ok (.addi (rdField w) (raField w) (imm5Field w))
  | 0b00110 => .ok (.adc (rdField w) (raField w) (rbField w))
  | 0b00111 => .ok (.adci (rdField w) (raField w) (imm5Field w))
  | 0b01000 => .ok (.neg (rdField w))
  | 0b01001 => .ok (.sub (rdField w) (raField w) (rbField w))
  | 0b01010 => .ok (.subi (rdField w) (raField w) (imm5Field w))
  | 0b01011 => .ok (.suc (rdField w) (raField w) (rbField w))
  | 0b01100 => .ok (.suci (rdField w) (raField w) (imm5Field w))
  | 0b01101 => .ok (.cmp (raField w) (rbField w))
  | 0b10000 => .ok (.and (rdField w) (raField w) (rbField w))
  | 0b10001 => .ok (.or (rdField w) (raField w) (rbField w))
  | 0b10010 => .ok (.xor (rdField w) (raField w) (rbField w))
  | 0b10011 => .ok (.not (rdField w) (raField w))
  | 0b10100 => .ok (.nand (rdField w) (raField w) (rbField w))
  | 0b10101 => .ok (.ldw (rdField w) (raField w) (imm5Field w))
  | 0b10110 => .ok (.nor (rdField w) (raField w) (rbField w))
  | 0b11000 => .ok (.addib (rdField w) (imm8Field w))
  | 0b11001 => .ok (.subib (rdField w) (imm8Field w))
  | 0b11010 => .ok (.lui (rdField w) (imm8Field w))
  | 0b11011 => .ok (.lli (rdField w) (imm8Field w))
  | 0b11100 => .ok (decodeStack w)
  | 0b11101 => .ok (.stw (rdField w) (raField w) (imm5Field w))
  | 0b11111 => .ok (decodeControl w)
  | _ => .error (.unassignedOpcode (opcodeField w))

/-- A field's value at its place in a word: the field's lowest bit is bit `lo`. -/
def place {k : Nat} (x : BitVec k) (lo : Nat) : Word := x.setWidth 16 <<< lo

/-- Format A, register sub-type: `op<<11 | rd<<8 | ra<<5 | rb<<2`, the X bits 0 (R52, R81). -/
def formatAReg (op : BitVec 5) (rd ra rb : BitVec 3) : Word := place op 11 ||| place rd 8 ||| place ra 5 ||| place rb 2

/-- Format A, immediate sub-type, and format C, which has the same layout: `op<<11 | rd<<8 | ra<<5 | imm5` (R53, R55). -/
def formatAImm (op : BitVec 5) (rd ra : BitVec 3) (imm5 : BitVec 5) : Word :=
  place op 11 ||| place rd 8 ||| place ra 5 ||| place imm5 0

/-- Format B: `op<<11 | rd<<8 | imm8` (R54). -/
def formatB (op : BitVec 5) (rd : BitVec 3) (imm8 : BitVec 8) : Word := place op 11 ||| place rd 8 ||| place imm8 0

/-- Format D, Others sub-type: `0xF800 | cond<<8 | imm8` (R56). -/
def formatDOthers (cond : BitVec 3) (imm8 : BitVec 8) : Word := 0xF800#16 ||| place cond 8 ||| place imm8 0

/-- Format D, Jump sub-type: `0xF800 | cond<<8 | ra<<5 | imm5` (R57). -/
def formatDJump (cond ra : BitVec 3) (imm5 : BitVec 5) : Word :=
  0xF800#16 ||| place cond 8 ||| place ra 5 ||| place imm5 0

/-- Format E: `0xE000 | U<<10 | L<<9 | ra<<5`, the X bits 0 (R58, R81). -/
def formatE (u l : Bool) (ra : BitVec 3) : Word :=
  0xE000#16 ||| place (BitVec.ofBool u) 10 ||| place (BitVec.ofBool l) 9 ||| place ra 5

/-- The canonical word of an instruction: its format's fields, and 0 in every unused bit (R52 to R58, R60, R81). -/
def encode : Instr → Word
  | .add rd ra rb => formatAReg 0b00100 rd.bits ra.bits rb.bits
  | .addi rd ra imm5 => formatAImm 0b00101 rd.bits ra.bits imm5
  | .addib rd imm8 => formatB 0b11000 rd.bits imm8
  | .adc rd ra rb => formatAReg 0b00110 rd.bits ra.bits rb.bits
  | .adci rd ra imm5 => formatAImm 0b00111 rd.bits ra.bits imm5
  | .neg rd => formatAReg 0b01000 rd.bits 0 0
  | .sub rd ra rb => formatAReg 0b01001 rd.bits ra.bits rb.bits
  | .subi rd ra imm5 => formatAImm 0b01010 rd.bits ra.bits imm5
  | .subib rd imm8 => formatB 0b11001 rd.bits imm8
  | .suc rd ra rb => formatAReg 0b01011 rd.bits ra.bits rb.bits
  | .suci rd ra imm5 => formatAImm 0b01100 rd.bits ra.bits imm5
  | .cmp ra rb => formatAReg 0b01101 0 ra.bits rb.bits
  | .and rd ra rb => formatAReg 0b10000 rd.bits ra.bits rb.bits
  | .or rd ra rb => formatAReg 0b10001 rd.bits ra.bits rb.bits
  | .xor rd ra rb => formatAReg 0b10010 rd.bits ra.bits rb.bits
  | .not rd ra => formatAReg 0b10011 rd.bits ra.bits 0
  | .nand rd ra rb => formatAReg 0b10100 rd.bits ra.bits rb.bits
  | .nor rd ra rb => formatAReg 0b10110 rd.bits ra.bits rb.bits
  | .lsl rd ra imm4 => formatAImm 0b00001 rd.bits ra.bits (imm4.setWidth 5)
  | .lsr rd ra imm4 => formatAImm 0b00010 rd.bits ra.bits (imm4.setWidth 5)
  | .asr rd ra imm4 => formatAImm 0b00011 rd.bits ra.bits (imm4.setWidth 5)
  | .ldw rd ra imm5 => formatAImm 0b10101 rd.bits ra.bits imm5
  | .stw rd ra imm5 => formatAImm 0b11101 rd.bits ra.bits imm5
  | .lui rd imm8 => formatB 0b11010 rd.bits imm8
  | .lli rd imm8 => formatB 0b11011 rd.bits imm8
  | .br imm8 => formatDOthers 0b000 imm8
  | .bne imm8 => formatDOthers 0b110 imm8
  | .be imm8 => formatDOthers 0b111 imm8
  | .blt imm8 => formatDOthers 0b100 imm8
  | .bge imm8 => formatDOthers 0b101 imm8
  | .bwl imm8 => formatDOthers 0b011 imm8
  | .ret => formatDOthers 0b010 0
  | .jmp ra imm5 => formatDJump 0b001 ra.bits imm5
  | .push link ra => formatE true link ra.bits
  | .pop link ra => formatE false link ra.bits

/-- The bits that format E leaves unused: 8 and 4 to 0, and the Ra field too when L = 1 (R62). -/
def stackUnusedBits (link : Bool) : Word := if link then 0x01FF else 0x011F

/-- The unused bits of an instruction's words, 1 where the bit is unused: the table of R62. -/
def unusedBits : Instr → Word
  | .add _ _ _ => 0x0003
  | .addi _ _ _ => 0
  | .addib _ _ => 0
  | .adc _ _ _ => 0x0003
  | .adci _ _ _ => 0
  | .neg _ => 0x00FF
  | .sub _ _ _ => 0x0003
  | .subi _ _ _ => 0
  | .subib _ _ => 0
  | .suc _ _ _ => 0x0003
  | .suci _ _ _ => 0
  | .cmp _ _ => 0x0703
  | .and _ _ _ => 0x0003
  | .or _ _ _ => 0x0003
  | .xor _ _ _ => 0x0003
  | .not _ _ => 0x001F
  | .nand _ _ _ => 0x0003
  | .nor _ _ _ => 0x0003
  | .lsl _ _ _ => 0x0010
  | .lsr _ _ _ => 0x0010
  | .asr _ _ _ => 0x0010
  | .ldw _ _ _ => 0
  | .stw _ _ _ => 0
  | .lui _ _ => 0
  | .lli _ _ => 0
  | .br _ => 0
  | .bne _ => 0
  | .be _ => 0
  | .blt _ => 0
  | .bge _ => 0
  | .bwl _ => 0
  | .ret => 0x00FF
  | .jmp _ _ => 0
  | .push link _ => stackUnusedBits link
  | .pop link _ => stackUnusedBits link

/-- Some unused bit of the word `w`, which decodes to `i`, is 1 (R62, STRICT_UNUSED_FIELDS). -/
def hasUnusedBitSet (w : Word) (i : Instr) : Bool := decide (w &&& unusedBits i ≠ 0)

/-- `t - (a + 1)`: the distance in words from the instruction after a branch at `a` to a label at `t`, over the integers
(R4, R78; notes/assumptions/29.md). -/
def labelDistance (a t : Word) : Int := (t.toNat : Int) - ((a.toNat : Int) + 1)

/-- The imm8 the assembler writes in a branch at word address `a` for a label at `t`: `(t - (a + 1)) mod 256` where
`-128 <= t - (a + 1) <= 127`, and no encoding for a label out of that reach (R78). -/
def labelImm8 (a t : Word) : Option (BitVec 8) :=
  if -128 ≤ labelDistance a t ∧ labelDistance a t ≤ 127 then some (.ofInt 8 (labelDistance a t)) else none

/-- The instruction word whose low `nbits` bits are those of `w` and whose other bits are 0. -/
def tableWord (nbits w : Nat) : Word := BitVec.ofNat 16 (w % 2 ^ nbits)

/-- What the decoder reads from an instruction word given as a number, bit 0 its least significant bit. -/
def decodeTableWord (nbits w : Nat) : Option Instr :=
  match decode (tableWord nbits w) with
  | .ok i => some i
  | .error _ => none

end Sys2Proof
end

