-- ==== Sys2Proof/Config.lean ====
section
/-! DEFINITION. The open parameters of spec/00_scope.md R2 that an instruction's rule or a step reads. The spec makes
them "arguments of the model"; they are plain data, carried in State and changed by no step (notes/assumptions/5.md). -/

namespace Sys2Proof

/-- How a 5-bit offset is extended to 16 bits: the values of MEM_IMM5_EXT and JMP_IMM5_EXT (R71, R72). -/
inductive Extension
  | zero
  | sign
deriving DecidableEq, Repr

/-- A range of data addresses, both ends included (notes/assumptions/9.md). -/
structure Region where
  first : Word
  last : Word
deriving DecidableEq, Repr

/-- The open parameters of R2 that the step reads. -/
structure Config where
  /-- MEM_IMM5_EXT: extension of imm5 in LDW and STW (R71). -/
  memImm5Ext : Extension
  /-- JMP_IMM5_EXT: extension of imm5 in JMP (R72). -/
  jmpImm5Ext : Extension
  /-- STRICT_UNUSED_FIELDS: refuse a word with a 1 in an unused bit (R62). -/
  strictUnusedFields : Bool
  /-- SP_ALIAS: the general register that SP is, if it is one (R12). -/
  spAlias : Option Reg
  /-- LR_ALIAS: the general register that LR is, if it is one (R13). -/
  lrAlias : Option Reg
  /-- IO_REGIONS: the addresses with side effects (R39). -/
  ioRegions : List Region
  /-- The launch memory: the data addresses a run may read and write (R38). -/
  launchMemory : List Region
deriving DecidableEq, Repr

/-- The defaults of R2. The launch memory lists every address: those of the program text are refused before the
launch memory is asked (R204), so this is "every address outside the program text". -/
def Config.standard : Config where
  memImm5Ext := .zero
  jmpImm5Ext := .zero
  strictUnusedFields := false
  spAlias := none
  lrAlias := none
  ioRegions := []
  launchMemory := [⟨0x0000#16, 0xFFFF#16⟩]

end Sys2Proof
end

