-- ==== Sys2Proof/Machine/State.lean ====
section
/-! DEFINITION. The machine's state, its stops, and reset (spec/10_state.md, spec/20_memory.md, spec/60_exceptions.md
R201, spec/70_reset_and_hazards.md R230 to R232). INVENTORY.md, "State", lists every field with its rule. -/

namespace Sys2Proof.Machine

/-- R0 to R7 (R10). -/
structure Regs where
  r0 : Word
  r1 : Word
  r2 : Word
  r3 : Word
  r4 : Word
  r5 : Word
  r6 : Word
  r7 : Word
deriving DecidableEq, Repr

/-- The four status flags (R17, R18). -/
structure Flags where
  /-- carry: after a subtraction 1 means no borrow -/
  c : Bool
  /-- signed overflow -/
  v : Bool
  /-- negative: bit 15 of the result -/
  n : Bool
  /-- zero: the result is 0x0000 -/
  z : Bool
deriving DecidableEq, Repr

/-- One listed 16-bit word at a word address (R31). Words, never bytes (R35, notes/assumptions/6.md). -/
abbrev Cell := Nat × Word

/-- A partial map from word addresses to words, as a list of cells. An address that is not listed holds no value
(notes/assumptions/3.md for the data memory, R33 for the program text). -/
abbrev Memory := List Cell

/-- The one canonical form of a memory: addresses strictly rising, all below 2^16. -/
abbrev Memory.wf (m : Memory) : Prop :=
  m.Pairwise (fun x y => x.1 < y.1) ∧ ∀ x ∈ m, x.1 < spaceSize

/-- Everything the spec gives the machine (R10 to R24, R33, R2). -/
@[ext]
structure State where
  /-- R0 to R7 (R10). -/
  regs : Regs
  /-- The word address of the next instruction (R14, R15). -/
  pc : Word
  /-- The stack pointer, where SP_ALIAS is none (R12). -/
  sp : Word
  /-- The link register, where LR_ALIAS is none (R13). -/
  lr : Word
  /-- c, v, n, z (R17). -/
  flags : Flags
  /-- The data memory `Mem` (R30, R31). -/
  mem : Memory
  /-- The program text, the defined part of the instruction space (R33). -/
  text : Memory
  /-- The open parameters of the platform (R2). -/
  cfg : Config
deriving DecidableEq, Repr

/-- Why a run has gone wrong (R201): the state is not final and no later step is taken. -/
inductive Fault
  /-- Raised by the fetch when the program text has no word at `pc = a` (R203). Safe: the chip would fetch something. -/
  | fetchUndefined (a : Word)
  /-- Raised by the decoder for a word `w` at address `a` with an unassigned primary opcode (R61, R202). Safe: what the
  chip does is unknown. -/
  | illegalInstruction (w a : Word)
  /-- Raised by LDW and POP when nothing has written the data word at `a` (R205, R206). Safe: the chip reads some value. -/
  | unwrittenRead (a : Word)
deriving DecidableEq, Repr

/-- Why the model gives a step no meaning (R201). -/
inductive Refusal
  /-- Raised after decoding, only under STRICT_UNUSED_FIELDS: the word `w` has a 1 in an unused bit (R62). Safe. -/
  | unusedFieldNonzero (w : Word)
  /-- Raised by LDW, STW, PUSH and POP: `a` is in IO_REGIONS, an address whose side effects the spec does not give
  (R39, R204). Safe. -/
  | ioAccess (a : Word)
  /-- Raised by STW and PUSH: `a` holds program text (R34, R204). Safe. -/
  | storeToProgramText (a : Word)
  /-- Raised by LDW and POP: `a` holds program text (R34, R204). Safe. -/
  | loadFromProgramText (a : Word)
  /-- Raised by LDW, STW, PUSH and POP: `a` is outside the launch memory (R38, R204). Safe. -/
  | accessNotAdmitted (a : Word)
  /-- Raised by exec's arm of an instruction that has no meaning yet, by its mnemonic. Safe. No arm does so now. -/
  | notModelled (mnemonic : String)
deriving DecidableEq, Repr

/-- The machine right after reset, with the defaults of R2 and no program launched: PC = RESET_PC = 0x0000 (R230),
SP = RESET_SP = 0xFFFF (R231; notes/assumptions/4.md). R232 gives R0 to R7, LR and the flags no value: DESIGN CHOICE
zero, unsafe (notes/assumptions/1.md). No data word is written and there is no program text
(notes/assumptions/3.md, notes/assumptions/7.md). -/
def State.reset : State where
  regs := ⟨0, 0, 0, 0, 0, 0, 0, 0⟩
  pc := 0x0000
  sp := 0xFFFF
  lr := 0x0000
  flags := ⟨false, false, false, false⟩
  mem := []
  text := []
  cfg := Config.standard

end Sys2Proof.Machine
end

