-- ==== Sys2Proof/Machine/Ops.lean ====
section
/-! DEFINITION. The named operations over registers, memory and the program counter, the launch, the data-access checks
(spec/60_exceptions.md R204, R206) and the fetch (spec/20_memory.md R33). The hardware has no exception entry and no
return from one (R200, R207, R208), so there is no such operation. -/

namespace Sys2Proof.Machine

/-! ## Registers -/

/-- Read a general register (R11). -/
def Regs.get (g : Regs) : Reg → Word
  | .r0 => g.r0
  | .r1 => g.r1
  | .r2 => g.r2
  | .r3 => g.r3
  | .r4 => g.r4
  | .r5 => g.r5
  | .r6 => g.r6
  | .r7 => g.r7

/-- Write a general register; the others keep their values (R11). -/
def Regs.set (g : Regs) (r : Reg) (v : Word) : Regs :=
  match r with
  | .r0 => { g with r0 := v }
  | .r1 => { g with r1 := v }
  | .r2 => { g with r2 := v }
  | .r3 => { g with r3 := v }
  | .r4 => { g with r4 := v }
  | .r5 => { g with r5 := v }
  | .r6 => { g with r6 := v }
  | .r7 => { g with r7 := v }

/-- `x[r]` (R5). -/
def State.reg (s : State) (r : Reg) : Word := s.regs.get r

/-- `x[r] <- v` (R5). -/
def State.setReg (s : State) (r : Reg) (v : Word) : State := { s with regs := s.regs.set r v }

/-- `SP` (R5): a register of its own, or the general register SP_ALIAS names (R12). -/
def State.getSp (s : State) : Word :=
  match s.cfg.spAlias with
  | none => s.sp
  | some r => s.reg r

/-- `SP <- v` (R5, R12). -/
def State.setSp (s : State) (v : Word) : State :=
  match s.cfg.spAlias with
  | none => { s with sp := v }
  | some r => s.setReg r v

/-- `LR` (R5): a register of its own, or the general register LR_ALIAS names (R13). -/
def State.getLr (s : State) : Word :=
  match s.cfg.lrAlias with
  | none => s.lr
  | some r => s.reg r

/-- `LR <- v` (R5, R13). -/
def State.setLr (s : State) (v : Word) : State :=
  match s.cfg.lrAlias with
  | none => { s with lr := v }
  | some r => s.setReg r v

/-- Write all four flags (R19, rows 1 to 12). -/
def State.setFlags (s : State) (f : Flags) : State := { s with flags := f }

/-- Write z and leave c, v and n (R19, rows 13 to 18). -/
def State.setZ (s : State) (z : Bool) : State := { s with flags := { s.flags with z := z } }

/-- `pc1 = (pc + 1) mod 2^16` (R5, R15). -/
def State.pc1 (s : State) : Word := s.pc + 1

/-- `pc <- t` (R5). -/
def State.setPc (s : State) (t : Word) : State := { s with pc := t }

/-- `pc <- pc1`: the end of every instruction that transfers no control (R15). -/
def State.advance (s : State) : State := s.setPc s.pc1

/-! ## Memory -/

/-- The word listed at an address, if any. -/
def Memory.read : Memory → Nat → Option Word
  | [], _ => none
  | (k, v) :: m, a => if k = a then some v else Memory.read m a

/-- Replace or list the word at an address, in its place in the rising order. -/
def Memory.write : Memory → Nat → Word → Memory
  | [], a, w => [(a, w)]
  | (k, v) :: m, a, w =>
    if a < k then (a, w) :: (k, v) :: m
    else if a = k then (a, w) :: m
    else (k, v) :: Memory.write m a w

/-- The address lies in the region. -/
def Region.holds (g : Region) (a : Word) : Bool := decide (g.first.toNat ≤ a.toNat ∧ a.toNat ≤ g.last.toNat)

/-- `a` is in IO_REGIONS (R39). -/
def State.isIo (s : State) (a : Word) : Bool := s.cfg.ioRegions.any (Region.holds · a)

/-- `a` is in the domain of the program text (R33). -/
def State.isText (s : State) (a : Word) : Bool := (s.text.read a.toNat).isSome

/-- `a` is in the launch memory (R38). -/
def State.isLaunched (s : State) (a : Word) : Bool := s.cfg.launchMemory.any (Region.holds · a)

/-- The data-access checks in the order of R204; `onText` is the refusal of the access kind for program text. -/
def accessRefusal (s : State) (onText : Word → Refusal) (a : Word) : Option Refusal :=
  if s.isIo a then some (.ioAccess a)
  else if s.isText a then some (onText a)
  else if s.isLaunched a then none
  else some (.accessNotAdmitted a)

/-- `MemRead(a, 1)` (R5, R37): the checks of R204, then the word at `a`, or `UnwrittenRead` where nothing has written it
(R205, R206; notes/assumptions/3.md). -/
def loadWord (s : State) (a : Word) : Host.Outcome Word Fault Refusal :=
  match accessRefusal s .loadFromProgramText a with
  | some r => .refused r
  | none =>
    match s.mem.read a.toNat with
    | some v => .next v
    | none => .fault (.unwrittenRead a)

/-- `MemWrite(a, 1, v)` (R5, R37): the checks of R204, then the store. -/
def storeWord (s : State) (a v : Word) : Host.Outcome State Fault Refusal :=
  match accessRefusal s .storeToProgramText a with
  | some r => .refused r
  | none => .next { s with mem := s.mem.write a.toNat v }

/-- Continue with what an access answered; a stop stops the instruction (R201). -/
def andThen {α β : Type} (o : Host.Outcome α Fault Refusal) (k : α → β) : Host.Outcome β Fault Refusal :=
  match o with
  | .next x => .next (k x)
  | .fault f => .fault f
  | .refused r => .refused r

/-! ## Fetch -/

/-- `IFetch(pc)` and decode, with the stops that come before the instruction's own, in the order of R206:
`FetchUndefined` (R203), `IllegalInstruction` (R202), `UnusedFieldNonzero` (R62). -/
def fetchDecode (s : State) : Host.Outcome Instr Fault Refusal :=
  match s.text.read s.pc.toNat with
  | none => .fault (.fetchUndefined s.pc)
  | some w =>
    match decode w with
    | .error _ => .fault (.illegalInstruction w s.pc)
    | .ok i =>
      if s.cfg.strictUnusedFields && hasUnusedBitSet w i then .refused (.unusedFieldNonzero w) else .next i

/-! ## Launch -/

/-- What the outside world fixes for a run: the open parameters, the program text, and the data words it initialises
(R2, R33, R38, R230, R231, R232). -/
structure Launch where
  cfg : Config
  resetPc : Word
  resetSp : Word
  text : Memory
  mem : Memory
deriving DecidableEq, Repr

/-- The defaults of R2, with no program and no data. -/
def Launch.standard : Launch where
  cfg := Config.standard
  resetPc := 0x0000
  resetSp := 0xFFFF
  text := []
  mem := []

/-- The state after reset under a launch: PC is RESET_PC and SP is RESET_SP (R230, R231), text and data are the
launch's (R232), and the rest is as in `State.reset`. -/
def State.launch (l : Launch) : State :=
  ({ State.reset with cfg := l.cfg, pc := l.resetPc, text := l.text, mem := l.mem } : State).setSp l.resetSp

end Sys2Proof.Machine
end

