-- ==== Sys2Proof/Machine/Operands.lean ====
section
/-! DEFINITION. Every operand form: the immediates (spec/30_encoding.md R67 to R73), the data address
(spec/43_data_transfer.md R160), the branch target (spec/44_control_transfer.md R170), the jump target (R179) and the
stack operand (spec/45_stack_operations.md R190, R191). -/

namespace Sys2Proof.Machine

/-- `zext_16(imm5)` of ADDI, ADCI, SUBI and SUCI: 0 to 31 (R68). -/
def aluImm5 (imm5 : BitVec 5) : Word := imm5.setWidth 16

/-- `zext_16(imm8)` of ADDIB and SUBIB: 0 to 255 (R69). -/
def aluImm8 (imm8 : BitVec 8) : Word := imm8.setWidth 16

/-- `ext(imm5)` under MEM_IMM5_EXT or JMP_IMM5_EXT (R71, R72). -/
def offset5 (e : Extension) (imm5 : BitVec 5) : Word :=
  match e with
  | .zero => imm5.setWidth 16
  | .sign => imm5.signExtend 16

/-- `{ imm8, x[7:0] }`: the upper byte replaced, the lower byte kept (R152, R73). -/
def withUpperByte (x : Word) (imm8 : BitVec 8) : Word := imm8.setWidth 16 <<< 8 ||| (x &&& 0x00FF#16)

/-- `{ x[15:8], imm8 }`: the lower byte replaced, the upper byte kept (R153, R73). -/
def withLowerByte (x : Word) (imm8 : BitVec 8) : Word := (x &&& 0xFF00#16) ||| imm8.setWidth 16

/-- The effective address of LDW and STW, `(x[ra] + ext(imm5)) mod 2^16` (R160). -/
def dataAddress (s : State) (ra : Reg) (imm5 : BitVec 5) : Word := s.reg ra + offset5 s.cfg.memImm5Ext imm5

/-- The target of the six label-taking branches, `(pc1 + sext_16(imm8)) mod 2^16` (R70, R170). -/
def branchTarget (s : State) (imm8 : BitVec 8) : Word := s.pc1 + imm8.signExtend 16

/-- The target of JMP, `(x[ra] + ext(imm5)) mod 2^16` (R179). -/
def jumpTarget (s : State) (ra : Reg) (imm5 : BitVec 5) : Word := s.reg ra + offset5 s.cfg.jmpImm5Ext imm5

/-- The value PUSH stores: LR when L = 1, else `x[ra]` (R190). -/
def stackSource (s : State) (link : Bool) (ra : Reg) : Word := if link then s.getLr else s.reg ra

/-- Where POP puts the loaded word: LR when L = 1, else Ra (R191). -/
def State.setStackDest (s : State) (link : Bool) (ra : Reg) (v : Word) : State :=
  if link then s.setLr v else s.setReg ra v

end Sys2Proof.Machine
end

