-- ==== Sys2Proof/Machine/Flags.lean ====
section
/-! DEFINITION. Every flag computation: the adder of spec/40_data_manipulation_arith.md R100 and the z flag of the logic
instructions (spec/41_data_manipulation_logic_shift.md R130). -/

namespace Sys2Proof.Machine

/-- The 17-bit sum of R100, over the integers: 0 to 131071. -/
def sum17 (a b : Word) (cin : Bool) : Nat := a.toNat + b.toNat + cin.toNat

/-- The result of `AddWithCarry(a, b, cin)` (R100). -/
def adderResult (a b : Word) (cin : Bool) : Word := BitVec.ofNat 16 (sum17 a b cin)

/-- The flags of `AddWithCarry(a, b, cin)` (R100). -/
def adderFlags (a b : Word) (cin : Bool) : Flags :=
  let res := adderResult a b cin
  { c := decide (sum17 a b cin / 65536 = 1)
    v := a.msb == b.msb && res.msb != a.msb
    n := res.msb
    z := decide (res = 0x0000#16) }

/-- `(res, c, v, n, z) = AddWithCarry(a, b, cin); x[rd] <- res`, all four flags written, `pc <- pc1`: what every
arithmetic instruction with a destination does (R101 to R109, R150, R151). -/
def addInto (s : State) (rd : Reg) (a b : Word) (cin : Bool) : State :=
  ((s.setReg rd (adderResult a b cin)).setFlags (adderFlags a b cin)).advance

/-- `x[rd] <- res; flag.z <- (res == 0x0000); pc <- pc1`: what every logic instruction does (R130 to R136). -/
def logicInto (s : State) (rd : Reg) (res : Word) : State :=
  ((s.setReg rd res).setZ (decide (res = 0x0000#16))).advance

/-- `x[rd] <- res; pc <- pc1`, no flag written: the shifts, LUI, LLI and LDW (R19, R137, R152, R153, R161). -/
def moveInto (s : State) (rd : Reg) (res : Word) : State := (s.setReg rd res).advance

end Sys2Proof.Machine
end

