-- ==== Sys2Proof/Machine/Arithmetic.lean ====
section
/-! DEFINITION. The ten arithmetic instructions of format A (spec/40_data_manipulation_arith.md). None stops. -/

namespace Sys2Proof.Machine

/-- ADD: `AddWithCarry(x[ra], x[rb], 0)` (R101). -/
def execAdd (rd ra rb : Reg) (s : State) : Host.Outcome State Fault Refusal :=
  .next (addInto s rd (s.reg ra) (s.reg rb) false)

/-- ADDI: `AddWithCarry(x[ra], zext_16(imm5), 0)` (R102). -/
def execAddi (rd ra : Reg) (imm5 : BitVec 5) (s : State) : Host.Outcome State Fault Refusal :=
  .next (addInto s rd (s.reg ra) (aluImm5 imm5) false)

/-- ADC: `AddWithCarry(x[ra], x[rb], flag.c)` (R103). -/
def execAdc (rd ra rb : Reg) (s : State) : Host.Outcome State Fault Refusal :=
  .next (addInto s rd (s.reg ra) (s.reg rb) s.flags.c)

/-- ADCI: `AddWithCarry(x[ra], zext_16(imm5), flag.c)` (R104). -/
def execAdci (rd ra : Reg) (imm5 : BitVec 5) (s : State) : Host.Outcome State Fault Refusal :=
  .next (addInto s rd (s.reg ra) (aluImm5 imm5) s.flags.c)

/-- NEG: `AddWithCarry(0x0000, ~x[rd], 1)` (R105). -/
def execNeg (rd : Reg) (s : State) : Host.Outcome State Fault Refusal :=
  .next (addInto s rd 0x0000 (~~~ s.reg rd) true)

/-- SUB: `AddWithCarry(x[ra], ~x[rb], 1)` (R106). -/
def execSub (rd ra rb : Reg) (s : State) : Host.Outcome State Fault Refusal :=
  .next (addInto s rd (s.reg ra) (~~~ s.reg rb) true)

/-- SUBI: `AddWithCarry(x[ra], ~zext_16(imm5), 1)` (R107). -/
def execSubi (rd ra : Reg) (imm5 : BitVec 5) (s : State) : Host.Outcome State Fault Refusal :=
  .next (addInto s rd (s.reg ra) (~~~ aluImm5 imm5) true)

/-- SUC: `AddWithCarry(x[ra], ~x[rb], flag.c)` (R108). -/
def execSuc (rd ra rb : Reg) (s : State) : Host.Outcome State Fault Refusal :=
  .next (addInto s rd (s.reg ra) (~~~ s.reg rb) s.flags.c)

/-- SUCI: `AddWithCarry(x[ra], ~zext_16(imm5), flag.c)` (R109). -/
def execSuci (rd ra : Reg) (imm5 : BitVec 5) (s : State) : Host.Outcome State Fault Refusal :=
  .next (addInto s rd (s.reg ra) (~~~ aluImm5 imm5) s.flags.c)

/-- CMP: the flags of `AddWithCarry(x[ra], ~x[rb], 1)`, the result discarded (R110). -/
def execCmp (ra rb : Reg) (s : State) : Host.Outcome State Fault Refusal :=
  .next (s.setFlags (adderFlags (s.reg ra) (~~~ s.reg rb) true)).advance

end Sys2Proof.Machine
end

