-- ==== Sys2Proof/Machine/ByteImmediate.lean ====
section
/-! DEFINITION. The four instructions of format B (spec/42_byte_immediate.md). None stops. -/

namespace Sys2Proof.Machine

/-- ADDIB: `AddWithCarry(x[rd], zext_16(imm8), 0)` (R150). -/
def execAddib (rd : Reg) (imm8 : BitVec 8) (s : State) : Host.Outcome State Fault Refusal :=
  .next (addInto s rd (s.reg rd) (aluImm8 imm8) false)

/-- SUBIB: `AddWithCarry(x[rd], ~zext_16(imm8), 1)` (R151). -/
def execSubib (rd : Reg) (imm8 : BitVec 8) (s : State) : Host.Outcome State Fault Refusal :=
  .next (addInto s rd (s.reg rd) (~~~ aluImm8 imm8) true)

/-- LUI: bits 15 to 8 replaced, bits 7 to 0 kept (R152, R73). -/
def execLui (rd : Reg) (imm8 : BitVec 8) (s : State) : Host.Outcome State Fault Refusal :=
  .next (moveInto s rd (withUpperByte (s.reg rd) imm8))

/-- LLI: bits 7 to 0 replaced, bits 15 to 8 kept (R153, R73). -/
def execLli (rd : Reg) (imm8 : BitVec 8) (s : State) : Host.Outcome State Fault Refusal :=
  .next (moveInto s rd (withLowerByte (s.reg rd) imm8))

end Sys2Proof.Machine
end

