-- ==== Sys2Proof/Machine/ControlTransfer.lean ====
section
/-! DEFINITION. The eight instructions of format D (spec/44_control_transfer.md). None stops, none writes a flag, and there
is no delay slot (R176). A target outside the program text faults at the next fetch (R181). -/

namespace Sys2Proof.Machine

/-- Taken: `pc <- (pc1 + sext_16(imm8)) mod 2^16`, else `pc <- pc1` (R172 to R176). -/
def branchIf (taken : Bool) (imm8 : BitVec 8) (s : State) : State :=
  if taken then s.setPc (branchTarget s imm8) else s.advance

/-- BR (R171). -/
def execBr (imm8 : BitVec 8) (s : State) : Host.Outcome State Fault Refusal :=
  .next (branchIf true imm8 s)

/-- BNE: taken when z = 0 (R172). -/
def execBne (imm8 : BitVec 8) (s : State) : Host.Outcome State Fault Refusal :=
  .next (branchIf (!s.flags.z) imm8 s)

/-- BE: taken when z = 1 (R173). -/
def execBe (imm8 : BitVec 8) (s : State) : Host.Outcome State Fault Refusal :=
  .next (branchIf s.flags.z imm8 s)

/-- BLT: taken when n and v differ (R174, the table's condition, 90_conflicts C2). -/
def execBlt (imm8 : BitVec 8) (s : State) : Host.Outcome State Fault Refusal :=
  .next (branchIf (s.flags.n != s.flags.v) imm8 s)

/-- BGE: taken when n and v are equal (R175, C2). -/
def execBge (imm8 : BitVec 8) (s : State) : Host.Outcome State Fault Refusal :=
  .next (branchIf (s.flags.n == s.flags.v) imm8 s)

/-- BWL: `LR <- pc1`, then the branch (R177, R16). -/
def execBwl (imm8 : BitVec 8) (s : State) : Host.Outcome State Fault Refusal :=
  .next ((s.setLr s.pc1).setPc (branchTarget s imm8))

/-- RET: `pc <- LR` (R178). -/
def execRet (s : State) : Host.Outcome State Fault Refusal :=
  .next (s.setPc s.getLr)

/-- JMP: `pc <- (x[ra] + ext(imm5)) mod 2^16` (R179). -/
def execJmp (ra : Reg) (imm5 : BitVec 5) (s : State) : Host.Outcome State Fault Refusal :=
  .next (s.setPc (jumpTarget s ra imm5))

end Sys2Proof.Machine
end

