-- ==== Sys2Proof/Machine/DataTransfer.lean ====
section
/-! DEFINITION. LDW and STW (spec/43_data_transfer.md). They stop only as the checks of a data access say (R204, R206). -/

namespace Sys2Proof.Machine

/-- LDW: `x[rd] <- MemRead(ea, 1)`, `ea` formed from the old `x[ra]` (R161). -/
def execLdw (rd ra : Reg) (imm5 : BitVec 5) (s : State) : Host.Outcome State Fault Refusal :=
  andThen (loadWord s (dataAddress s ra imm5)) (fun v => moveInto s rd v)

/-- STW: `MemWrite(ea, 1, x[rd])` (R162). -/
def execStw (rd ra : Reg) (imm5 : BitVec 5) (s : State) : Host.Outcome State Fault Refusal :=
  andThen (storeWord s (dataAddress s ra imm5) (s.reg rd)) State.advance

end Sys2Proof.Machine
end

