-- ==== Sys2Proof/Machine/LogicShift.lean ====
section
/-! DEFINITION. The six logic instructions and the three shifts (spec/41_data_manipulation_logic_shift.md). None stops.
The logic instructions write z alone (R130), the shifts no flag (R137). -/

namespace Sys2Proof.Machine

/-- AND (R131). -/
def execAnd (rd ra rb : Reg) (s : State) : Host.Outcome State Fault Refusal :=
  .next (logicInto s rd (s.reg ra &&& s.reg rb))

/-- OR (R132). -/
def execOr (rd ra rb : Reg) (s : State) : Host.Outcome State Fault Refusal :=
  .next (logicInto s rd (s.reg ra ||| s.reg rb))

/-- XOR (R133). -/
def execXor (rd ra rb : Reg) (s : State) : Host.Outcome State Fault Refusal :=
  .next (logicInto s rd (s.reg ra ^^^ s.reg rb))

/-- NOT (R134). -/
def execNot (rd ra : Reg) (s : State) : Host.Outcome State Fault Refusal :=
  .next (logicInto s rd (~~~ s.reg ra))

/-- NAND (R135). -/
def execNand (rd ra rb : Reg) (s : State) : Host.Outcome State Fault Refusal :=
  .next (logicInto s rd (~~~ (s.reg ra &&& s.reg rb)))

/-- NOR (R136). -/
def execNor (rd ra rb : Reg) (s : State) : Host.Outcome State Fault Refusal :=
  .next (logicInto s rd (~~~ (s.reg ra ||| s.reg rb)))

/-- LSL: zeros enter at bit 0 (R138). -/
def execLsl (rd ra : Reg) (imm4 : BitVec 4) (s : State) : Host.Outcome State Fault Refusal :=
  .next (moveInto s rd (s.reg ra <<< imm4.toNat))

/-- LSR: zeros enter at bit 15 (R139). -/
def execLsr (rd ra : Reg) (imm4 : BitVec 4) (s : State) : Host.Outcome State Fault Refusal :=
  .next (moveInto s rd (s.reg ra >>> imm4.toNat))

/-- ASR: copies of bit 15 enter at bit 15 (R140). -/
def execAsr (rd ra : Reg) (imm4 : BitVec 4) (s : State) : Host.Outcome State Fault Refusal :=
  .next (moveInto s rd ((s.reg ra).sshiftRight imm4.toNat))

end Sys2Proof.Machine
end

