-- ==== Sys2Proof/Machine/Stack.lean ====
section
/-! DEFINITION. PUSH and POP (spec/45_stack_operations.md), in the table's order (90_conflicts C1). They stop only as the
checks of a data access say (R204, R206), and a POP that stops leaves SP (R191). -/

namespace Sys2Proof.Machine

/-- PUSH: `MemWrite(SP, 1, v)`, then `SP <- (SP - 1) mod 2^16` (R190). -/
def execPush (link : Bool) (ra : Reg) (s : State) : Host.Outcome State Fault Refusal :=
  andThen (storeWord s s.getSp (stackSource s link ra)) (fun t => (t.setSp (s.getSp - 1)).advance)

/-- POP: `a = (SP + 1) mod 2^16`, `SP <- a`, then the word at `a` to Ra or LR (R191). Where SP_ALIAS makes the destination
SP itself, the loaded word is the later write and stays (notes/assumptions/10.md). -/
def execPop (link : Bool) (ra : Reg) (s : State) : Host.Outcome State Fault Refusal :=
  andThen (loadWord s (s.getSp + 1)) (fun v => ((s.setSp (s.getSp + 1)).setStackDest link ra v).advance)

end Sys2Proof.Machine
end

