-- ==== Sys2Proof/Machine/Dispatch.lean ====
section
/-! DEFINITION. The dispatch: one arm per instruction, each a call of its meaning. -/

namespace Sys2Proof.Machine

def exec (i : Instr) (s : State) : Host.Outcome State Fault Refusal :=
  match i with
  | .add rd ra rb => Sys2Proof.Machine.execAdd rd ra rb s
  | .addi rd ra imm5 => Sys2Proof.Machine.execAddi rd ra imm5 s
  | .addib rd imm8 => Sys2Proof.Machine.execAddib rd imm8 s
  | .adc rd ra rb => Sys2Proof.Machine.execAdc rd ra rb s
  | .adci rd ra imm5 => Sys2Proof.Machine.execAdci rd ra imm5 s
  | .neg rd => Sys2Proof.Machine.execNeg rd s
  | .sub rd ra rb => Sys2Proof.Machine.execSub rd ra rb s
  | .subi rd ra imm5 => Sys2Proof.Machine.execSubi rd ra imm5 s
  | .subib rd imm8 => Sys2Proof.Machine.execSubib rd imm8 s
  | .suc rd ra rb => Sys2Proof.Machine.execSuc rd ra rb s
  | .suci rd ra imm5 => Sys2Proof.Machine.execSuci rd ra imm5 s
  | .cmp ra rb => Sys2Proof.Machine.execCmp ra rb s
  | .and rd ra rb => Sys2Proof.Machine.execAnd rd ra rb s
  | .or rd ra rb => Sys2Proof.Machine.execOr rd ra rb s
  | .xor rd ra rb => Sys2Proof.Machine.execXor rd ra rb s
  | .not rd ra => Sys2Proof.Machine.execNot rd ra s
  | .nand rd ra rb => Sys2Proof.Machine.execNand rd ra rb s
  | .nor rd ra rb => Sys2Proof.Machine.execNor rd ra rb s
  | .lsl rd ra imm4 => Sys2Proof.Machine.execLsl rd ra imm4 s
  | .lsr rd ra imm4 => Sys2Proof.Machine.execLsr rd ra imm4 s
  | .asr rd ra imm4 => Sys2Proof.Machine.execAsr rd ra imm4 s
  | .ldw rd ra imm5 => Sys2Proof.Machine.execLdw rd ra imm5 s
  | .stw rd ra imm5 => Sys2Proof.Machine.execStw rd ra imm5 s
  | .lui rd imm8 => Sys2Proof.Machine.execLui rd imm8 s
  | .lli rd imm8 => Sys2Proof.Machine.execLli rd imm8 s
  | .br imm8 => Sys2Proof.Machine.execBr imm8 s
  | .bne imm8 => Sys2Proof.Machine.execBne imm8 s
  | .be imm8 => Sys2Proof.Machine.execBe imm8 s
  | .blt imm8 => Sys2Proof.Machine.execBlt imm8 s
  | .bge imm8 => Sys2Proof.Machine.execBge imm8 s
  | .bwl imm8 => Sys2Proof.Machine.execBwl imm8 s
  | .ret => Sys2Proof.Machine.execRet s
  | .jmp ra imm5 => Sys2Proof.Machine.execJmp ra imm5 s
  | .push link ra => Sys2Proof.Machine.execPush link ra s
  | .pop link ra => Sys2Proof.Machine.execPop link ra s

end Sys2Proof.Machine
end

