-- ==== Sys2Proof/Machine/Step.lean ====
section
/-! DEFINITION. One step of the machine (spec/00_scope.md R6): fetch, decode, perform the instruction's rule. -/

namespace Sys2Proof.Machine

/-- One step (R6). A step that stops changes nothing (R206). -/
def step (s : State) : Host.Outcome State Fault Refusal :=
  match fetchDecode s with
  | .next i => exec i s
  | .fault f => .fault f
  | .refused r => .refused r

/-- `s` with a program word stored where the next step fetches: it stands for the launch that supplies the program text
(R33, R232; notes/assumptions/7.md). -/
def State.withFetchWord (s : State) (nbits w : Nat) : State :=
  { s with text := s.text.write s.pc.toNat (tableWord nbits w) }

end Sys2Proof.Machine
end

