-- ==== Sys2Proof/Safety.lean ====
section
/-! DEFINITION. The terms claims use: the invariant, completion and the end of a run, what an instruction leaves
unchanged, the conditions of a data access, and the exact meaning of the flags. No step reads them. -/

namespace Sys2Proof.Claims

open Sys2Proof.Machine

/-! ## Runs -/

/-- A run stays in states of this form: both memories canonical, and no data word listed at an address that holds
program text (R34: the data memory and the program text never overlap in an admitted run). -/
abbrev RunInv (s : State) : Prop :=
  s.mem.wf ∧ s.text.wf ∧ ∀ x ∈ s.mem, s.text.read x.1 = none

/-- The step or instruction is safe: it answers a next state, neither a fault nor a refusal (R201). -/
def Completes (o : Host.Outcome State Fault Refusal) : Prop := ∃ t, o = .next t

/-- The end of a run: the word at `pc` is `BR` to itself (R236). -/
abbrev Ended (s : State) : Prop := s.text.read s.pc.toNat = some 0xF8FF#16

/-- Two outcomes of one kind: next states related by `R`, or the same stop. -/
def Related (R : State → State → Prop) : (o p : Host.Outcome State Fault Refusal) → Prop
  | .next t, .next u => R t u
  | .fault f, .fault g => f = g
  | .refused q, .refused r => q = r
  | _, _ => False

/-! ## Frames -/

/-- Nothing changes but general registers in `rs`, the flags and the program counter. -/
def OnlyRegs (rs : List Reg) (s t : State) : Prop :=
  (∀ r, r ∉ rs → t.reg r = s.reg r) ∧ t.sp = s.sp ∧ t.lr = s.lr ∧
  (∀ a : Nat, t.mem.read a = s.mem.read a) ∧ t.text = s.text ∧ t.cfg = s.cfg

/-- Nothing changes but the program counter, which goes `d` words beyond the next instruction (R16, R32). -/
def MovesPc (s t : State) (d : Int) : Prop :=
  t = { s with pc := t.pc } ∧ (t.pc.toNat : Int) = ((s.pc.toNat : Int) + 1 + d) % 65536

/-- The data word at `a` becomes `v`, every other address reads as before. -/
def StoresAt (s t : State) (a v : Word) : Prop :=
  t.mem.read a.toNat = some v ∧ ∀ b : Nat, b ≠ a.toNat → t.mem.read b = s.mem.read b

/-- SP becomes `v`, wherever SP_ALIAS puts it, and neither the `sp` field nor a general register outside `rs` changes
beside it (R12). -/
def OnlySp (rs : List Reg) (s t : State) : Prop :=
  (∀ r, r ∉ rs → s.cfg.spAlias ≠ some r → t.reg r = s.reg r) ∧ (s.cfg.spAlias ≠ none → t.sp = s.sp)

/-! ## Data accesses (R204) -/

/-- The address lies between the region's ends, both included. -/
abbrev InRegion (g : Region) (a : Word) : Prop := g.first.toNat ≤ a.toNat ∧ a.toNat ≤ g.last.toNat

/-- `a` is in IO_REGIONS (R39). -/
abbrev IsIo (s : State) (a : Word) : Prop := ∃ g ∈ s.cfg.ioRegions, InRegion g a

/-- `a` holds program text (R33). -/
abbrev IsText (s : State) (a : Word) : Prop := s.text.read a.toNat ≠ none

/-- `a` is in the launch memory (R38). -/
abbrev IsLaunched (s : State) (a : Word) : Prop := ∃ g ∈ s.cfg.launchMemory, InRegion g a

/-- No check of R204 refuses an access to `a`. -/
abbrev Admitted (s : State) (a : Word) : Prop := ¬ IsIo s a ∧ ¬ IsText s a ∧ IsLaunched s a

/-- The refusals of an access to `a`, in the order of R204; `onText` names the one for program text. -/
def RefusedInOrder (s : State) (a : Word) (onText : Refusal) (o : Host.Outcome State Fault Refusal) : Prop :=
  (IsIo s a → o = .refused (.ioAccess a)) ∧
  (¬ IsIo s a → IsText s a → o = .refused onText) ∧
  (¬ IsIo s a → ¬ IsText s a → ¬ IsLaunched s a → o = .refused (.accessNotAdmitted a))

/-! ## Exact arithmetic (R100) -/

/-- A signed value that 16 bits hold. -/
abbrev Fits (x : Int) : Prop := -32768 ≤ x ∧ x ≤ 32767

/-- A bit as an integer. -/
abbrev bit (b : Bool) : Int := b.toNat

/-- n and z from the 16-bit result (R18). -/
def SignZero (f : Flags) (res : Word) : Prop := f.n = res.msb ∧ (f.z = true ↔ res = 0x0000#16)

/-- `res` and the flags are those of `a + b + cin`: c the carry out of bit 15, v signed overflow (R18, R100). -/
def SumFlags (f : Flags) (res a b : Word) (cin : Bool) : Prop :=
  res = BitVec.ofInt 16 (a.toInt + b.toInt + bit cin) ∧
  (f.c = true ↔ 65536 ≤ a.toNat + b.toNat + cin.toNat) ∧
  (f.v = true ↔ ¬ Fits (a.toInt + b.toInt + bit cin)) ∧ SignZero f res

/-- `res` and the flags are those of `a - b - NOT c`: c set when there is no borrow, v signed overflow (R18, R100). -/
def DiffFlags (f : Flags) (res a b : Word) (c : Bool) : Prop :=
  res = BitVec.ofInt 16 (a.toInt - b.toInt - bit (!c)) ∧
  (f.c = true ↔ b.toNat + (!c).toNat ≤ a.toNat) ∧
  (f.v = true ↔ ¬ Fits (a.toInt - b.toInt - bit (!c))) ∧ SignZero f res

/-- `t` is `s` with `rd` and the flags as for `a + b + cin`, at the next instruction. -/
def AddedInto (s t : State) (rd : Reg) (a b : Word) (cin : Bool) : Prop :=
  SumFlags t.flags (t.reg rd) a b cin ∧ t.pc = s.pc + 1 ∧ OnlyRegs [rd] s t

/-- `t` is `s` with `rd` and the flags as for `a - b - NOT c`, at the next instruction. -/
def SubtractedInto (s t : State) (rd : Reg) (a b : Word) (c : Bool) : Prop :=
  DiffFlags t.flags (t.reg rd) a b c ∧ t.pc = s.pc + 1 ∧ OnlyRegs [rd] s t

/-- `t` is `s` with `rd` the operation `f` on each bit of `a` and `b`, z from the result, c, v and n kept (R130). -/
def BitwiseInto (s t : State) (rd : Reg) (f : Bool → Bool → Bool) (a b : Word) : Prop :=
  (∀ k, k < 16 → (t.reg rd).getLsbD k = f (a.getLsbD k) (b.getLsbD k)) ∧
  t.flags = { s.flags with z := decide (t.reg rd = 0x0000#16) } ∧ t.pc = s.pc + 1 ∧ OnlyRegs [rd] s t

/-- `t` is `s` with `rd` changed and the flags kept, at the next instruction (R19). -/
def MovedInto (s t : State) (rd : Reg) : Prop :=
  t.flags = s.flags ∧ t.pc = s.pc + 1 ∧ OnlyRegs [rd] s t

/-! ## Tables of the spec -/

/-- The Flags column (R19): which flags the instruction writes. -/
inductive FlagsColumn
  | cvnz | z | none
deriving DecidableEq, Repr

/-- R19's table. -/
def flagsColumn : Instr → FlagsColumn
  | .add _ _ _ | .addi _ _ _ | .addib _ _ | .adc _ _ _ | .adci _ _ _ | .neg _ | .sub _ _ _ | .subi _ _ _
  | .subib _ _ | .suc _ _ _ | .suci _ _ _ | .cmp _ _ => .cvnz
  | .and _ _ _ | .or _ _ _ | .xor _ _ _ | .not _ _ | .nand _ _ _ | .nor _ _ _ => .z
  | .lsl _ _ _ | .lsr _ _ _ | .asr _ _ _ | .ldw _ _ _ | .stw _ _ _ | .lui _ _ | .lli _ _ | .br _ | .bne _ | .be _
  | .blt _ | .bge _ | .bwl _ | .ret | .jmp _ _ | .push _ _ | .pop _ _ => .none

/-- The instructions that read c (R20). -/
def readsC : Instr → Bool
  | .adc _ _ _ | .adci _ _ _ | .suc _ _ _ | .suci _ _ _ => true
  | _ => false

/-- The instructions that read z (R20). -/
def readsZ : Instr → Bool
  | .bne _ | .be _ => true
  | _ => false

/-- The instructions that read n and v (R20). -/
def readsNV : Instr → Bool
  | .blt _ | .bge _ => true
  | _ => false

/-- The general register an instruction writes by its own number (10_state.md, section 2, table). -/
def destination : Instr → Option Reg
  | .add rd _ _ | .addi rd _ _ | .addib rd _ | .adc rd _ _ | .adci rd _ _ | .neg rd | .sub rd _ _ | .subi rd _ _
  | .subib rd _ | .suc rd _ _ | .suci rd _ _ | .and rd _ _ | .or rd _ _ | .xor rd _ _ | .not rd _ | .nand rd _ _
  | .nor rd _ _ | .lsl rd _ _ | .lsr rd _ _ | .asr rd _ _ | .ldw rd _ _ | .lui rd _ | .lli rd _ => some rd
  | .pop false ra => some ra
  | .cmp _ _ | .stw _ _ _ | .br _ | .bne _ | .be _ | .blt _ | .bge _ | .bwl _ | .ret | .jmp _ _ | .push _ _
  | .pop true _ => none

/-- The instructions that write SP (R12). -/
def writesSp : Instr → Bool
  | .push _ _ | .pop _ _ => true
  | _ => false

/-- The instructions that write LR (R13). -/
def writesLr : Instr → Bool
  | .bwl _ | .pop true _ => true
  | _ => false

/-- The address an instruction stores a word to (20_memory.md, section 1, table). -/
def storeAddress (s : State) : Instr → Option Word
  | .stw _ ra imm5 => some (dataAddress s ra imm5)
  | .push _ _ => some s.getSp
  | _ => none

/-- The address an instruction loads a word from (20_memory.md, section 1, table). -/
def loadAddress (s : State) : Instr → Option Word
  | .ldw _ ra imm5 => some (dataAddress s ra imm5)
  | .pop _ _ => some (s.getSp + 1)
  | _ => none

/-- The control transfers, format D (R56, R57). -/
def isControl : Instr → Bool
  | .br _ | .bne _ | .be _ | .blt _ | .bge _ | .bwl _ | .ret | .jmp _ _ => true
  | _ => false

/-- `match` and `mask` of the instruction's row of spec/opcode_table.json (R60, R63, R64). -/
def tableRow : Instr → Word × Word
  | .add _ _ _ => (0x2000, 0xF800)
  | .addi _ _ _ => (0x2800, 0xF800)
  | .addib _ _ => (0xC000, 0xF800)
  | .adc _ _ _ => (0x3000, 0xF800)
  | .adci _ _ _ => (0x3800, 0xF800)
  | .neg _ => (0x4000, 0xF800)
  | .sub _ _ _ => (0x4800, 0xF800)
  | .subi _ _ _ => (0x5000, 0xF800)
  | .subib _ _ => (0xC800, 0xF800)
  | .suc _ _ _ => (0x5800, 0xF800)
  | .suci _ _ _ => (0x6000, 0xF800)
  | .cmp _ _ => (0x6800, 0xF800)
  | .and _ _ _ => (0x8000, 0xF800)
  | .or _ _ _ => (0x8800, 0xF800)
  | .xor _ _ _ => (0x9000, 0xF800)
  | .not _ _ => (0x9800, 0xF800)
  | .nand _ _ _ => (0xA000, 0xF800)
  | .nor _ _ _ => (0xB000, 0xF800)
  | .lsl _ _ _ => (0x0800, 0xF800)
  | .lsr _ _ _ => (0x1000, 0xF800)
  | .asr _ _ _ => (0x1800, 0xF800)
  | .ldw _ _ _ => (0xA800, 0xF800)
  | .stw _ _ _ => (0xE800, 0xF800)
  | .lui _ _ => (0xD000, 0xF800)
  | .lli _ _ => (0xD800, 0xF800)
  | .br _ => (0xF800, 0xFF00)
  | .bne _ => (0xFE00, 0xFF00)
  | .be _ => (0xFF00, 0xFF00)
  | .blt _ => (0xFC00, 0xFF00)
  | .bge _ => (0xFD00, 0xFF00)
  | .bwl _ => (0xFB00, 0xFF00)
  | .ret => (0xFA00, 0xFF00)
  | .jmp _ _ => (0xF900, 0xFF00)
  | .push _ _ => (0xE400, 0xFC00)
  | .pop _ _ => (0xE000, 0xFC00)

/-! ## Encodings, word by word -/

/-- The register selected by the three bits of `w` from bit `lo` up (R10, R51). -/
def regAt (w : Word) (lo : Nat) : Reg := Reg.ofBits (w.extractLsb' lo 3)

/-- Every word with primary opcode `op` is `mk Rd Ra Rb`, its fields at bits 10, 7 and 4 down (R52). -/
def DecodesAReg (op : BitVec 5) (mk : Reg → Reg → Reg → Instr) : Prop :=
  ∀ w : Word, w.extractLsb' 11 5 = op → decode w = .ok (mk (regAt w 8) (regAt w 5) (regAt w 2))

/-- Every word with primary opcode `op` is `mk Rd Ra imm`, the immediate in the low `k` bits (R53, R55, R67). -/
def DecodesAImm (op : BitVec 5) (k : Nat) (mk : Reg → Reg → BitVec k → Instr) : Prop :=
  ∀ w : Word, w.extractLsb' 11 5 = op → decode w = .ok (mk (regAt w 8) (regAt w 5) (w.extractLsb' 0 k))

/-- Every word with primary opcode `op` is `mk Rd imm8` (R54). -/
def DecodesB (op : BitVec 5) (mk : Reg → BitVec 8 → Instr) : Prop :=
  ∀ w : Word, w.extractLsb' 11 5 = op → decode w = .ok (mk (regAt w 8) (w.extractLsb' 0 8))

/-- Every word with upper byte `hi` is `mk imm8` (R56, R63). -/
def DecodesD (hi : BitVec 8) (mk : BitVec 8 → Instr) : Prop :=
  ∀ w : Word, w.extractLsb' 8 8 = hi → decode w = .ok (mk (w.extractLsb' 0 8))

/-- Every word with upper six bits `hi` is `mk L Ra`, the Ra field read only when L = 0 (R58, R62, R64). -/
def DecodesE (hi : BitVec 6) (mk : Bool → Reg → Instr) : Prop :=
  ∀ w : Word, w.extractLsb' 10 6 = hi →
    (w.getLsbD 9 = false → decode w = .ok (mk false (regAt w 5))) ∧ (w.getLsbD 9 = true → decode w = .ok (mk true .r0))

end Sys2Proof.Claims
end

