-- ==== Sys2Proof/Certificates/Slice0/Obligations.lean ====
section
/-! DEFINITION. The statements for the provers. Each docstring names the rules of spec/ it rests on. The vocabulary is in
Sys2Proof/Safety.lean. -/

open Sys2Proof
open Sys2Proof.Machine
open Sys2Proof.Claims

/-! ## Encoding -/

/-- Decoding the canonical word of a well-formed instruction gives it back, at every operand value (30_encoding.md,
sections 1, 2 and 6). -/
def Obligations.DecodeInvertsEncode : Prop :=
  ∀ i : Instr, i.wf = true → decode (encode i) = .ok i

/-- Every word that decodes gives a well-formed instruction whose canonical word is that word with its unused bits
cleared (R62, R81, spec decision D12): decoding drops the unused bits and no other. -/
def Obligations.EncodeClearsUnusedBitsOnly : Prop :=
  ∀ (w : Word) (i : Instr), decode w = .ok i → i.wf = true ∧ encode i = w &&& ~~~ unusedBits i

/-- Two words that differ only in unused bits are the same instruction (R62, spec decision D12). -/
def Obligations.UnusedBitsDoNotMatter : Prop :=
  ∀ (w w' : Word) (i : Instr), decode w = .ok i → (w ^^^ w') &&& ~~~ unusedBits i = 0#16 → decode w' = .ok i

/-- R60 and R63: a word decodes to an instruction of a row exactly when it carries the row's fixed bits (the opcode alone,
with cond under 11111 and U under 11100), and the words that select no instruction are exactly those of the five
unassigned primary opcodes. -/
def Obligations.OpcodeMapIsComplete : Prop :=
  (∀ (w : Word) (i : Instr), w &&& (tableRow i).2 = (tableRow i).1 ↔
    ∃ j, decode w = .ok j ∧ tableRow j = tableRow i) ∧
  (∀ w : Word, decode w = .error (.unassignedOpcode (w.extractLsb' 11 5)) ↔
    w.extractLsb' 11 5 ∈ [0b00000#5, 0b01110#5, 0b01111#5, 0b10111#5, 0b11110#5])

/-- Words of 95_test_vectors.md section 2, each written out from the encoding, decode to what they stand for. -/
def Obligations.SampleWordsDecode : Prop :=
  decode 0b0010010101110000#16 = .ok (.add .r5 .r3 .r4) ∧
  decode 0b0000110101100011#16 = .ok (.lsl .r5 .r3 3) ∧
  decode 0b1100010110010110#16 = .ok (.addib .r5 150) ∧
  decode 0b1010110101100111#16 = .ok (.ldw .r5 .r3 7) ∧
  decode 0b1111111011111101#16 = .ok (.bne 0xFD) ∧
  decode 0b1111100101100010#16 = .ok (.jmp .r3 2) ∧
  decode 0b1110011000000000#16 = .ok (.push true .r0) ∧
  decode 0b1110000111111111#16 = .ok (.pop false .r7) ∧
  decode 0b0000000000000000#16 = .error (.unassignedOpcode 0)

/-- The assembler's label formula is the inverse of the branch target: a label within -128 to 127 words of the next
instruction has an imm8, `(t - (a + 1)) mod 256`, which reaches it, and a label out of that reach has none; and every
word from -128 to 127 words beyond the next instruction, across the wrap of the address space too, is reached by the
imm8 of its distance (R78, R170, spec decisions D4, D5, D25; that the assembler's distance does not wrap is the model's
reading, notes/assumptions/29.md). -/
def Obligations.LabelOffsetReachesLabel : Prop :=
  (∀ (s : State) (t : Word) (d : Int), d = (t.toNat : Int) - ((s.pc.toNat : Int) + 1) →
    (-128 ≤ d → d ≤ 127 →
      ∃ k, labelImm8 s.pc t = some k ∧ (k.toNat : Int) = d % 256 ∧ branchTarget s k = t) ∧
    (d < -128 ∨ 127 < d → labelImm8 s.pc t = none)) ∧
  ∀ (s : State) (d : Int), -128 ≤ d → d ≤ 127 →
    branchTarget s (BitVec.ofInt 8 d) = BitVec.ofInt 16 ((s.pc.toNat : Int) + 1 + d)

/-! ## The step -/

/-- When the program word at `pc` decodes to `i`, and STRICT_UNUSED_FIELDS does not refuse the word, the step is `exec i`
and nothing around it (R6). -/
def Obligations.StepRunsDecodedInstruction : Prop :=
  ∀ (s : State) (w : Word) (i : Instr), s.text.read s.pc.toNat = some w → decode w = .ok i →
    (s.cfg.strictUnusedFields = false ∨ w &&& unusedBits i = 0#16) → step s = exec i s

/-- The three stops that come before an instruction's own, in order (R202, R203, R206, spec decisions D12, D13, D27). -/
def Obligations.StepStopsBeforeExec : Prop :=
  ∀ s : State,
    (s.text.read s.pc.toNat = none → step s = .fault (.fetchUndefined s.pc)) ∧
    (∀ w e, s.text.read s.pc.toNat = some w → decode w = .error e → step s = .fault (.illegalInstruction w s.pc)) ∧
    (∀ w i, s.text.read s.pc.toNat = some w → decode w = .ok i → s.cfg.strictUnusedFields = true →
      w &&& unusedBits i ≠ 0#16 → step s = .refused (.unusedFieldNonzero w))

/-- Placing a word where the next step fetches makes that step run it, and changes no other program word
(notes/assumptions/7.md, the model's choice: it stands for the launch of R33). -/
def Obligations.PlacedWordIsFetched : Prop :=
  ∀ (s : State) (w : Nat) (i : Instr), decodeTableWord 16 w = some i → s.cfg.strictUnusedFields = false →
    step (s.withFetchWord 16 w) = exec i (s.withFetchWord 16 w) ∧
    ∀ a : Nat, a ≠ s.pc.toNat → (s.withFetchWord 16 w).text.read a = s.text.read a

/-! ## Reset and invariants -/

/-- A launch fixes PC, SP (wherever SP_ALIAS puts it), the program text, the data words and the parameters (R230, R231,
R232, spec decision D20), and State.reset is the launch with the defaults of R2. Its zero registers and flags are the
model's choice, notes/assumptions/1.md. -/
def Obligations.LaunchFixesPcAndSp : Prop :=
  (∀ l : Launch, (State.launch l).pc = l.resetPc ∧ (State.launch l).getSp = l.resetSp ∧
    (State.launch l).text = l.text ∧ (State.launch l).mem = l.mem ∧ (State.launch l).cfg = l.cfg) ∧
  State.reset = State.launch Launch.standard ∧
  State.reset.pc = 0x0000#16 ∧ State.reset.getSp = 0xFFFF#16 ∧ State.reset.lr = 0#16 ∧
  (∀ r, State.reset.reg r = 0#16) ∧ State.reset.flags = ⟨false, false, false, false⟩

/-- The invariant holds at reset, and after every launch whose two memories are canonical and do not overlap
(R33, R34, R232). -/
def Obligations.InvariantHoldsAtLaunch : Prop :=
  RunInv State.reset ∧
  ∀ l : Launch, l.text.wf → l.mem.wf → (∀ x ∈ l.mem, l.text.read x.1 = none) → RunInv (State.launch l)

/-- Every step keeps both memories canonical and the data memory clear of the program text (R33, R34, R44). -/
def Obligations.StepKeepsInvariant : Prop :=
  ∀ s t : State, RunInv s → step s = .next t → RunInv t

/-- No step changes the program text or the parameters: the instruction word at each address is the launch's throughout
a run (R33, R44, spec decision D15). -/
def Obligations.StepKeepsProgramAndParameters : Prop :=
  ∀ s t : State, step s = .next t → t.text = s.text ∧ t.cfg = s.cfg

/-- The end of a run: `BR` to itself is a fixed point, for any number of steps (R236, spec decision D24). -/
def Obligations.SelfBranchEndsRun : Prop :=
  ∀ (k : Nat) (s : State), Ended s → Sys2Proof.core.run k s = .next s

/-! ## Whole-machine rules -/

/-- R200 and the "model outcomes" lines of files 40 to 45: an instruction that neither loads nor stores completes in every
state, and a loading or storing one that does not complete stops with one of the data-access stops at its own
address (R204, R206, spec decisions D15, D21, D28). -/
def Obligations.OnlyDataAccessesStop : Prop :=
  ∀ (i : Instr) (s : State),
    (loadAddress s i = none → storeAddress s i = none → Completes (exec i s)) ∧
    (∀ a, loadAddress s i = some a →
      Completes (exec i s) ∨ exec i s = .refused (.ioAccess a) ∨ exec i s = .refused (.loadFromProgramText a) ∨
        exec i s = .refused (.accessNotAdmitted a) ∨ exec i s = .fault (.unwrittenRead a)) ∧
    (∀ a, storeAddress s i = some a →
      Completes (exec i s) ∨ exec i s = .refused (.ioAccess a) ∨ exec i s = .refused (.storeToProgramText a) ∨
        exec i s = .refused (.accessNotAdmitted a))

/-- R19's last column: the flags an instruction leaves unchanged. -/
def Obligations.FlagsOutsideColumnKept : Prop :=
  ∀ (i : Instr) (s t : State), exec i s = .next t →
    (flagsColumn i = .none → t.flags = s.flags) ∧
    (flagsColumn i = .z → t.flags.c = s.flags.c ∧ t.flags.v = s.flags.v ∧ t.flags.n = s.flags.n)

/-- R20: an instruction's outcome depends on no flag but those R20 says it reads, and a flag it writes (R19) does not
depend on that flag's old value. -/
def Obligations.FlagsReadOnlyAsListed : Prop :=
  ∀ (i : Instr) (s : State) (f : Flags),
    (readsC i = true → f.c = s.flags.c) → (readsZ i = true → f.z = s.flags.z) →
    (readsNV i = true → f.n = s.flags.n ∧ f.v = s.flags.v) →
    Related
      (fun t u => u = { t with flags := u.flags } ∧ (flagsColumn i = .cvnz → u.flags = t.flags) ∧
        (flagsColumn i = .z → u.flags.z = t.flags.z) ∧ (flagsColumn i = .none → u.flags = f))
      (exec i s) (exec i { s with flags := f })

/-- The table of general registers read and written (10_state.md, section 2): only the destination changes, and, where
SP_ALIAS or LR_ALIAS makes SP or LR a general register, that register when the instruction writes SP or LR (R12, R13;
DEDUCED, notes/assumptions/10.md). -/
def Obligations.OnlyDestinationRegisterChanges : Prop :=
  ∀ (i : Instr) (s t : State) (r : Reg), exec i s = .next t → destination i ≠ some r →
    ¬ (writesSp i = true ∧ s.cfg.spAlias = some r) → ¬ (writesLr i = true ∧ s.cfg.lrAlias = some r) →
    t.reg r = s.reg r

/-- SP is written only by PUSH and POP, LR only by BWL and by POP with L = 1, where they are registers of their own
(R12, R13, spec decision D2). -/
def Obligations.SpAndLrWrittenOnlyAsListed : Prop :=
  ∀ (i : Instr) (s t : State), exec i s = .next t →
    (writesSp i = false → t.sp = s.sp) ∧ (writesLr i = false → t.lr = s.lr)

/-- Data memory changes only in the word at the address STW or PUSH computes (R37, R163). -/
def Obligations.OnlyStoredWordChanges : Prop :=
  ∀ (i : Instr) (s t : State), exec i s = .next t →
    (storeAddress s i = none → ∀ b : Nat, t.mem.read b = s.mem.read b) ∧
    (∀ a, storeAddress s i = some a → ∀ b : Nat, b ≠ a.toNat → t.mem.read b = s.mem.read b)

/-- Every instruction that is no control transfer ends at the next word, modulo 2^16 (R15, spec decision D3). -/
def Obligations.OthersGoToNextWord : Prop :=
  ∀ (i : Instr) (s t : State), isControl i = false → exec i s = .next t →
    t.pc.toNat = (s.pc.toNat + 1) % 65536

/-- What the data memory holds at addresses of the program text cannot be observed: this is why UNIFIED_MEMORY cannot
matter (R34, spec decision D15). -/
def Obligations.DataUnderProgramTextUnobservable : Prop :=
  ∀ (i : Instr) (s : State) (m : Memory),
    (∀ a : Nat, s.text.read a = none → m.read a = s.mem.read a) →
    Related
      (fun t u => u = { t with mem := u.mem } ∧ ∀ a : Nat, s.text.read a = none → u.mem.read a = t.mem.read a)
      (exec i s) (exec i { s with mem := m })

/-! ## Arithmetic -/

/-- R100's adder and its consequences (i), (ii) and (iii) against exact integers (spec decisions D10, D11). -/
def Obligations.AdderIsExact : Prop :=
  (∀ (a b : Word) (cin : Bool), SumFlags (adderFlags a b cin) (adderResult a b cin) a b cin) ∧
  (∀ (a b : Word) (cin : Bool), DiffFlags (adderFlags a (~~~ b) cin) (adderResult a (~~~ b) cin) a b cin) ∧
  (∀ a b : Word, ((adderFlags a (~~~ b) true).n ≠ (adderFlags a (~~~ b) true).v ↔ a.toInt < b.toInt))

/-- R101, R102, R103, R104: ADD, ADDI, ADC and ADCI, every word of theirs and every state. The flag formulas and the
zero-extension are the spec's decisions D10, D11 and D6 (notes/assumptions/16.md, notes/assumptions/21.md). -/
def Obligations.AdditionsWriteSumAndFlags : Prop :=
  (DecodesAReg 0b00100 .add ∧ DecodesAImm 0b00101 5 .addi ∧ DecodesAReg 0b00110 .adc ∧ DecodesAImm 0b00111 5 .adci) ∧
  ∀ (s : State) (rd ra rb : Reg) (imm5 : BitVec 5),
    (∃ t, exec (.add rd ra rb) s = .next t ∧ AddedInto s t rd (s.reg ra) (s.reg rb) false) ∧
    (∃ t, exec (.addi rd ra imm5) s = .next t ∧ AddedInto s t rd (s.reg ra) (imm5.setWidth 16) false) ∧
    (∃ t, exec (.adc rd ra rb) s = .next t ∧ AddedInto s t rd (s.reg ra) (s.reg rb) s.flags.c) ∧
    (∃ t, exec (.adci rd ra imm5) s = .next t ∧ AddedInto s t rd (s.reg ra) (imm5.setWidth 16) s.flags.c)

/-- R106, R107, R108, R109: SUB, SUBI, SUC and SUCI (spec decisions D10, D11, D6: notes/assumptions/16.md,
notes/assumptions/21.md). -/
def Obligations.SubtractionsWriteDifferenceAndFlags : Prop :=
  (DecodesAReg 0b01001 .sub ∧ DecodesAImm 0b01010 5 .subi ∧ DecodesAReg 0b01011 .suc ∧ DecodesAImm 0b01100 5 .suci) ∧
  ∀ (s : State) (rd ra rb : Reg) (imm5 : BitVec 5),
    (∃ t, exec (.sub rd ra rb) s = .next t ∧ SubtractedInto s t rd (s.reg ra) (s.reg rb) true) ∧
    (∃ t, exec (.subi rd ra imm5) s = .next t ∧ SubtractedInto s t rd (s.reg ra) (imm5.setWidth 16) true) ∧
    (∃ t, exec (.suc rd ra rb) s = .next t ∧ SubtractedInto s t rd (s.reg ra) (s.reg rb) s.flags.c) ∧
    (∃ t, exec (.suci rd ra imm5) s = .next t ∧ SubtractedInto s t rd (s.reg ra) (imm5.setWidth 16) s.flags.c)

/-- R105: NEG, with the flags of `0 - Rd`; v only for 0x8000, c only for 0x0000 (spec decisions D10,
D11: notes/assumptions/16.md). -/
def Obligations.NegateWritesDifferenceFromZero : Prop :=
  (∀ w : Word, w.extractLsb' 11 5 = 0b01000#5 → decode w = .ok (.neg (regAt w 8))) ∧
  ∀ (s : State) (rd : Reg), ∃ t, exec (.neg rd) s = .next t ∧ SubtractedInto s t rd 0x0000 (s.reg rd) true ∧
    (t.flags.v = true ↔ s.reg rd = 0x8000#16) ∧ (t.flags.c = true ↔ s.reg rd = 0x0000#16)

/-- R110: CMP writes the flags SUB would write and no register; z is equality, n differs from v exactly for signed less,
c is unsigned at least (spec decisions D10, D11: notes/assumptions/16.md). -/
def Obligations.CompareWritesFlagsOnly : Prop :=
  (∀ w : Word, w.extractLsb' 11 5 = 0b01101#5 → decode w = .ok (.cmp (regAt w 5) (regAt w 2))) ∧
  ∀ (s : State) (ra rb : Reg), ∃ t, exec (.cmp ra rb) s = .next t ∧
    (∃ res, DiffFlags t.flags res (s.reg ra) (s.reg rb) true) ∧ t.pc = s.pc + 1 ∧ OnlyRegs [] s t ∧
    (t.flags.z = true ↔ s.reg ra = s.reg rb) ∧
    (t.flags.n ≠ t.flags.v ↔ (s.reg ra).toInt < (s.reg rb).toInt) ∧
    (t.flags.c = true ↔ (s.reg rb).toNat ≤ (s.reg ra).toNat)

/-- A branch after CMP is taken as its name says, for all operands: BE on equal, BNE on unequal, BLT on signed less, BGE
on signed greater or equal (40_data_manipulation_arith.md, section 3; 44_control_transfer.md, section 2). -/
def Obligations.BranchAfterCompareTellsOrder : Prop :=
  ∀ (s t : State) (ra rb : Reg) (imm8 : BitVec 8), exec (.cmp ra rb) s = .next t →
    (∃ u, exec (.be imm8) t = .next u ∧ MovesPc t u (if s.reg ra = s.reg rb then imm8.toInt else 0)) ∧
    (∃ u, exec (.bne imm8) t = .next u ∧ MovesPc t u (if s.reg ra = s.reg rb then 0 else imm8.toInt)) ∧
    (∃ u, exec (.blt imm8) t = .next u ∧
      MovesPc t u (if (s.reg ra).toInt < (s.reg rb).toInt then imm8.toInt else 0)) ∧
    (∃ u, exec (.bge imm8) t = .next u ∧
      MovesPc t u (if (s.reg ra).toInt < (s.reg rb).toInt then 0 else imm8.toInt))

/-- ADD on the low words and ADC on the high words add two 32-bit numbers, carry out in c
(40_data_manipulation_arith.md, section 2, "Use"). -/
def Obligations.AddThenAdcAddsDoubleWords : Prop :=
  ∀ (s t : State) (dl al bl dh ah bh : Reg), ah ≠ dl → bh ≠ dl → dh ≠ dl → exec (.add dl al bl) s = .next t →
    ∃ u, exec (.adc dh ah bh) t = .next u ∧
      (u.reg dh).toNat * 65536 + (u.reg dl).toNat + u.flags.c.toNat * 4294967296 =
        ((s.reg ah).toNat * 65536 + (s.reg al).toNat) + ((s.reg bh).toNat * 65536 + (s.reg bl).toNat)

/-- SUB on the low words and SUC on the high words subtract two 32-bit numbers, c = 1 for no borrow
(40_data_manipulation_arith.md, section 3, "Use"). -/
def Obligations.SubThenSucSubtractsDoubleWords : Prop :=
  ∀ (s t : State) (dl al bl dh ah bh : Reg), ah ≠ dl → bh ≠ dl → dh ≠ dl → exec (.sub dl al bl) s = .next t →
    ∃ u, exec (.suc dh ah bh) t = .next u ∧
      ((u.reg dh).toNat * 65536 + (u.reg dl).toNat : Int) - bit (!u.flags.c) * 4294967296 =
        ((s.reg ah).toNat * 65536 + (s.reg al).toNat : Int) - ((s.reg bh).toNat * 65536 + (s.reg bl).toNat)

/-! ## Logic, shifts, bytes -/

/-- R131 to R136: the six logic instructions, bit by bit, writing z alone. -/
def Obligations.LogicIsBitwiseAndWritesZ : Prop :=
  (DecodesAReg 0b10000 .and ∧ DecodesAReg 0b10001 .or ∧ DecodesAReg 0b10010 .xor ∧ DecodesAReg 0b10100 .nand ∧
    DecodesAReg 0b10110 .nor ∧
    ∀ w : Word, w.extractLsb' 11 5 = 0b10011#5 → decode w = .ok (.not (regAt w 8) (regAt w 5))) ∧
  ∀ (s : State) (rd ra rb : Reg),
    (∃ t, exec (.and rd ra rb) s = .next t ∧ BitwiseInto s t rd (fun x y => x && y) (s.reg ra) (s.reg rb)) ∧
    (∃ t, exec (.or rd ra rb) s = .next t ∧ BitwiseInto s t rd (fun x y => x || y) (s.reg ra) (s.reg rb)) ∧
    (∃ t, exec (.xor rd ra rb) s = .next t ∧ BitwiseInto s t rd (fun x y => x != y) (s.reg ra) (s.reg rb)) ∧
    (∃ t, exec (.not rd ra) s = .next t ∧ BitwiseInto s t rd (fun x _ => !x) (s.reg ra) (s.reg ra)) ∧
    (∃ t, exec (.nand rd ra rb) s = .next t ∧ BitwiseInto s t rd (fun x y => !(x && y)) (s.reg ra) (s.reg rb)) ∧
    (∃ t, exec (.nor rd ra rb) s = .next t ∧ BitwiseInto s t rd (fun x y => !(x || y)) (s.reg ra) (s.reg rb))

/-- R138, R139, R140: the shifts as integer arithmetic, for every amount 0 to 15; no flag written (decision D9
and G2 of the spec: notes/assumptions/19.md). -/
def Obligations.ShiftsMultiplyAndDivide : Prop :=
  (DecodesAImm 0b00001 4 .lsl ∧ DecodesAImm 0b00010 4 .lsr ∧ DecodesAImm 0b00011 4 .asr) ∧
  ∀ (s : State) (rd ra : Reg) (imm4 : BitVec 4),
    (∃ t, exec (.lsl rd ra imm4) s = .next t ∧
      (t.reg rd).toNat = (s.reg ra).toNat * 2 ^ imm4.toNat % 65536 ∧ MovedInto s t rd) ∧
    (∃ t, exec (.lsr rd ra imm4) s = .next t ∧
      (t.reg rd).toNat = (s.reg ra).toNat / 2 ^ imm4.toNat ∧ MovedInto s t rd) ∧
    (∃ t, exec (.asr rd ra imm4) s = .next t ∧
      (t.reg rd).toInt = (s.reg ra).toInt.fdiv (2 ^ imm4.toNat) ∧
      (∀ k, k < 16 → (t.reg rd).getLsbD k = (s.reg ra).getLsbD (min (k + imm4.toNat) 15)) ∧ MovedInto s t rd)

/-- LSL by 0 is the idiom that copies a register and changes no flag; onto itself it changes nothing but pc
(30_encoding.md, section 6, "Pseudo-instructions"; 41_data_manipulation_logic_shift.md, section 2). -/
def Obligations.ShiftByZeroCopies : Prop :=
  ∀ (s : State) (rd ra : Reg),
    (∃ t, exec (.lsl rd ra 0) s = .next t ∧ t.reg rd = s.reg ra ∧ MovedInto s t rd) ∧
    exec (.lsl ra ra 0) s = .next { s with pc := s.pc + 1 }

/-- R150, R151: ADDIB and SUBIB, the byte zero-extended (spec decisions D10, D11: notes/assumptions/16.md). -/
def Obligations.ByteImmediatesAddAndSubtract : Prop :=
  (DecodesB 0b11000 .addib ∧ DecodesB 0b11001 .subib) ∧
  ∀ (s : State) (rd : Reg) (imm8 : BitVec 8),
    (∃ t, exec (.addib rd imm8) s = .next t ∧ AddedInto s t rd (s.reg rd) (imm8.setWidth 16) false) ∧
    (∃ t, exec (.subib rd imm8) s = .next t ∧ SubtractedInto s t rd (s.reg rd) (imm8.setWidth 16) true)

/-- LUI replaces the upper byte and LLI the lower one, each keeping the other byte (42_byte_immediate.md; keeping it is
the spec's decision D18). -/
def Obligations.LoadByteKeepsOtherByte : Prop :=
  (DecodesB 0b11010 .lui ∧ DecodesB 0b11011 .lli) ∧
  ∀ (s : State) (rd : Reg) (imm8 : BitVec 8),
    (∃ t, exec (.lui rd imm8) s = .next t ∧
      (t.reg rd).toNat = imm8.toNat * 256 + (s.reg rd).toNat % 256 ∧ MovedInto s t rd) ∧
    (∃ t, exec (.lli rd imm8) s = .next t ∧
      (t.reg rd).toNat = (s.reg rd).toNat / 256 * 256 + imm8.toNat ∧ MovedInto s t rd)

/-- LLI and LUI in either order load any 16-bit constant whatever the register held, and change no flag
(42_byte_immediate.md, its last rule, derived there). -/
def Obligations.BytePairLoadsConstant : Prop :=
  ∀ (s : State) (rd : Reg) (k : Word),
    (∃ t u, exec (.lli rd (k.extractLsb' 0 8)) s = .next t ∧ exec (.lui rd (k.extractLsb' 8 8)) t = .next u ∧
      u.reg rd = k ∧ u.flags = s.flags ∧ OnlyRegs [rd] s u) ∧
    (∃ t u, exec (.lui rd (k.extractLsb' 8 8)) s = .next t ∧ exec (.lli rd (k.extractLsb' 0 8)) t = .next u ∧
      u.reg rd = k ∧ u.flags = s.flags ∧ OnlyRegs [rd] s u)

/-! ## Data transfer -/

/-- Every computed address as an integer modulo 2^16, under both values of MEM_IMM5_EXT and JMP_IMM5_EXT (R32, R70, R71,
R72, R160, R170, R179; spec decisions D4, D5, D7, D8, D14). -/
def Obligations.ComputedAddressesWrap : Prop :=
  ∀ (s : State) (ra : Reg) (imm5 : BitVec 5) (imm8 : BitVec 8),
    (s.cfg.memImm5Ext = .zero → (dataAddress s ra imm5).toNat = ((s.reg ra).toNat + imm5.toNat) % 65536) ∧
    (s.cfg.memImm5Ext = .sign →
      ((dataAddress s ra imm5).toNat : Int) = ((s.reg ra).toNat + imm5.toInt) % 65536) ∧
    (s.cfg.jmpImm5Ext = .zero → (jumpTarget s ra imm5).toNat = ((s.reg ra).toNat + imm5.toNat) % 65536) ∧
    (s.cfg.jmpImm5Ext = .sign →
      ((jumpTarget s ra imm5).toNat : Int) = ((s.reg ra).toNat + imm5.toInt) % 65536) ∧
    ((branchTarget s imm8).toNat : Int) = ((s.pc.toNat : Int) + 1 + imm8.toInt) % 65536

/-- LDW loads the whole word at the effective address, formed from the old base register; it stops only as the checks of
a data access say (43_data_transfer.md, LDW). That a word nothing has written is a fault, and no draw, is the model's
choice of the two treatments the spec permits: DESIGN CHOICE, notes/assumptions/3.md. -/
def Obligations.LoadReadsWordAtAddress : Prop :=
  DecodesAImm 0b10101 5 .ldw ∧
  ∀ (s : State) (rd ra : Reg) (imm5 : BitVec 5) (a : Word), a = dataAddress s ra imm5 →
    (∀ v, Admitted s a → s.mem.read a.toNat = some v →
      ∃ t, exec (.ldw rd ra imm5) s = .next t ∧ t.reg rd = v ∧ MovedInto s t rd) ∧
    (Admitted s a → s.mem.read a.toNat = none → exec (.ldw rd ra imm5) s = .fault (.unwrittenRead a)) ∧
    RefusedInOrder s a (.loadFromProgramText a) (exec (.ldw rd ra imm5) s)

/-- R162: STW stores Rd at the effective address, changes no register and no flag; it stops only as the checks of a data
access say. -/
def Obligations.StoreWritesWordAtAddress : Prop :=
  DecodesAImm 0b11101 5 .stw ∧
  ∀ (s : State) (rd ra : Reg) (imm5 : BitVec 5) (a : Word), a = dataAddress s ra imm5 →
    (Admitted s a → ∃ t, exec (.stw rd ra imm5) s = .next t ∧ StoresAt s t a (s.reg rd) ∧
      t = { s with mem := t.mem, pc := s.pc + 1 }) ∧
    RefusedInOrder s a (.storeToProgramText a) (exec (.stw rd ra imm5) s)

/-- A load from the address just stored to returns the stored value (20_memory.md, section 8; spec decision D17). -/
def Obligations.LoadAfterStoreReturnsValue : Prop :=
  ∀ (s t : State) (rd ra rd' ra' : Reg) (imm5 imm5' : BitVec 5), exec (.stw rd ra imm5) s = .next t →
    dataAddress t ra' imm5' = dataAddress s ra imm5 →
    ∃ u, exec (.ldw rd' ra' imm5') t = .next u ∧ u.reg rd' = s.reg rd

/-! ## Control transfer -/

/-- R171 to R175: the branches, taken or not, change nothing but pc, which goes imm8 (signed) words beyond the next
instruction when taken, and to the next instruction when not (spec decisions D4, D5: notes/assumptions/17.md). -/
def Obligations.BranchesMovePc : Prop :=
  (DecodesD 0b11111000 .br ∧ DecodesD 0b11111110 .bne ∧ DecodesD 0b11111111 .be ∧ DecodesD 0b11111100 .blt ∧
    DecodesD 0b11111101 .bge) ∧
  ∀ (s : State) (imm8 : BitVec 8),
    (∃ t, exec (.br imm8) s = .next t ∧ MovesPc s t imm8.toInt) ∧
    (∃ t, exec (.bne imm8) s = .next t ∧ MovesPc s t (if s.flags.z = false then imm8.toInt else 0)) ∧
    (∃ t, exec (.be imm8) s = .next t ∧ MovesPc s t (if s.flags.z = true then imm8.toInt else 0)) ∧
    (∃ t, exec (.blt imm8) s = .next t ∧ MovesPc s t (if s.flags.n ≠ s.flags.v then imm8.toInt else 0)) ∧
    (∃ t, exec (.bge imm8) s = .next t ∧ MovesPc s t (if s.flags.n = s.flags.v then imm8.toInt else 0))

/-- BWL writes the address of the next instruction to LR and branches; RET goes to LR and changes nothing else
(44_control_transfer.md, section 3; spec decisions D4, D5: notes/assumptions/17.md). That under LR_ALIAS the link goes to
a general register, and RET reads it there, is the model's reading of the parameter: DEDUCED, notes/assumptions/10.md. -/
def Obligations.BranchWithLinkAndReturn : Prop :=
  (DecodesD 0b11111011 .bwl ∧ ∀ w : Word, w.extractLsb' 8 8 = 0b11111010#8 → decode w = .ok .ret) ∧
  ∀ (s : State) (imm8 : BitVec 8),
    (∃ t, exec (.bwl imm8) s = .next t ∧ t.getLr.toNat = (s.pc.toNat + 1) % 65536 ∧
      (t.pc.toNat : Int) = ((s.pc.toNat : Int) + 1 + imm8.toInt) % 65536 ∧
      t = { s with pc := t.pc, lr := t.lr, regs := t.regs } ∧
      (∀ r, s.cfg.lrAlias ≠ some r → t.reg r = s.reg r) ∧ (s.cfg.lrAlias ≠ none → t.lr = s.lr)) ∧
    (∃ t, exec .ret s = .next t ∧ t.pc = s.getLr ∧ t = { s with pc := t.pc })

/-- A subroutine that leaves LR alone returns to the instruction after its BWL (10_state.md, section 4, the reading of PC
that makes BWL and RET a pair). -/
def Obligations.ReturnResumesAfterCall : Prop :=
  ∀ (s t u : State) (imm8 : BitVec 8), exec (.bwl imm8) s = .next t → u.getLr = t.getLr →
    ∃ v, exec .ret u = .next v ∧ v.pc = s.pc + 1 ∧ v.getLr = u.getLr

/-- JMP goes to `x[ra] + ext(imm5)` modulo 2^16 under both values of JMP_IMM5_EXT, and changes nothing but pc
(44_control_transfer.md, section 3; spec decision D8). -/
def Obligations.JumpGoesToRegisterPlusOffset : Prop :=
  (∀ w : Word, w.extractLsb' 8 8 = 0b11111001#8 → decode w = .ok (.jmp (regAt w 5) (w.extractLsb' 0 5))) ∧
  ∀ (s : State) (ra : Reg) (imm5 : BitVec 5),
    ∃ t, exec (.jmp ra imm5) s = .next t ∧ t = { s with pc := t.pc } ∧
      (t.pc.toNat : Int) = ((s.reg ra).toNat +
        (match s.cfg.jmpImm5Ext with | .zero => (imm5.toNat : Int) | .sign => imm5.toInt)) % 65536

/-! ## Stack -/

/-- PUSH stores Ra, or LR when L = 1, at the address SP holds, then decrements SP; it stops only as the checks of a data
access say (45_stack_operations.md, PUSH). Two clauses are the model's: SP and LR are the registers SP_ALIAS and LR_ALIAS
name (DEDUCED, notes/assumptions/10.md), and with L = 1 the decoder gives R0 for the ignored Ra field (DESIGN CHOICE,
notes/assumptions/24.md). -/
def Obligations.PushStoresThenDecrements : Prop :=
  DecodesE 0b111001 .push ∧
  ∀ (s : State) (link : Bool) (ra : Reg),
    (Admitted s s.getSp → ∃ t, exec (.push link ra) s = .next t ∧
      StoresAt s t s.getSp (if link then s.getLr else s.reg ra) ∧
      (t.getSp.toNat : Int) = ((s.getSp.toNat : Int) - 1) % 65536 ∧ OnlySp [] s t ∧
      t = { s with mem := t.mem, pc := s.pc + 1, sp := t.sp, regs := t.regs }) ∧
    RefusedInOrder s s.getSp (.storeToProgramText s.getSp) (exec (.push link ra) s)

/-- POP increments SP, then loads Ra, or LR when L = 1, from the address SP now holds; it stops only as the checks of a
data access say (45_stack_operations.md, POP). Three clauses are the model's: a word nothing has written is a fault
(DESIGN CHOICE, notes/assumptions/3.md); SP and LR are the registers SP_ALIAS and LR_ALIAS name, and where that makes the
destination SP itself the loaded word stays (DEDUCED, notes/assumptions/10.md); with L = 1 the decoder gives R0 for the
ignored Ra field (DESIGN CHOICE, notes/assumptions/24.md). -/
def Obligations.PopIncrementsThenLoads : Prop :=
  DecodesE 0b111000 .pop ∧
  ∀ (s : State) (ra : Reg) (a : Word), a.toNat = (s.getSp.toNat + 1) % 65536 →
    (∀ v, Admitted s a → s.mem.read a.toNat = some v →
      (∃ t, exec (.pop false ra) s = .next t ∧ t.reg ra = v ∧ (s.cfg.spAlias ≠ some ra → t.getSp = a) ∧
        OnlySp [ra] s t ∧ t = { s with pc := s.pc + 1, sp := t.sp, regs := t.regs }) ∧
      (∃ t, exec (.pop true ra) s = .next t ∧ t.getLr = v ∧
        (s.cfg.spAlias = none ∨ s.cfg.spAlias ≠ s.cfg.lrAlias → t.getSp = a) ∧
        OnlySp s.cfg.lrAlias.toList s t ∧ (s.cfg.lrAlias ≠ none → t.lr = s.lr) ∧
        t = { s with pc := s.pc + 1, sp := t.sp, lr := t.lr, regs := t.regs })) ∧
    (∀ link, Admitted s a → s.mem.read a.toNat = none → exec (.pop link ra) s = .fault (.unwrittenRead a)) ∧
    (∀ link, RefusedInOrder s a (.loadFromProgramText a) (exec (.pop link ra) s))

/-- A POP right after a PUSH returns the pushed value and, unless its destination is SP itself, restores SP, whatever the
operands (45_stack_operations.md, derived there from the PUSH rule; aliases: notes/assumptions/10.md). -/
def Obligations.PopAfterPushReturnsValue : Prop :=
  ∀ (s t : State) (link link' : Bool) (ra ra' : Reg), exec (.push link ra) s = .next t →
    ∃ u, exec (.pop link' ra') t = .next u ∧
      (if link' then u.getLr else u.reg ra') = (if link then s.getLr else s.reg ra) ∧
      (s.cfg.spAlias = none ∨ s.cfg.spAlias ≠ (if link' then s.cfg.lrAlias else some ra') → u.getSp = s.getSp)
end

