-- ==== Sys2Proof/Laws/Access.lean ====
section
/-! SUPPORT. What each shared operation of a step can do, said once: the data-access checks, loading, storing, fetching. -/

namespace Sys2Proof.Machine

open Sys2Proof.Claims

theorem Region.holds_iff (g : Region) (a : Word) : Region.holds g a = true ↔ InRegion g a := by
  simp [Region.holds]

theorem State.isIo_iff (s : State) (a : Word) : s.isIo a = true ↔ IsIo s a := by
  simp [State.isIo, List.any_eq_true, Region.holds_iff]

theorem State.isText_iff (s : State) (a : Word) : s.isText a = true ↔ IsText s a := by
  simp [State.isText, Option.isSome_iff_ne_none]

theorem State.isLaunched_iff (s : State) (a : Word) : s.isLaunched a = true ↔ IsLaunched s a := by
  simp [State.isLaunched, List.any_eq_true, Region.holds_iff]

/-- No check refuses exactly where the access is admitted (R204). -/
theorem accessRefusal_none (s : State) (k : Word → Refusal) (a : Word) : accessRefusal s k a = none ↔ Admitted s a := by
  unfold accessRefusal Admitted
  rw [← State.isIo_iff, ← State.isText_iff, ← State.isLaunched_iff]
  split_ifs <;> simp_all

/-- The refusals, in the order of R204. -/
theorem accessRefusal_some (s : State) (k : Word → Refusal) (a : Word) :
    (IsIo s a → accessRefusal s k a = some (.ioAccess a)) ∧
    (¬ IsIo s a → IsText s a → accessRefusal s k a = some (k a)) ∧
    (¬ IsIo s a → ¬ IsText s a → ¬ IsLaunched s a → accessRefusal s k a = some (.accessNotAdmitted a)) := by
  unfold accessRefusal
  rw [← State.isIo_iff, ← State.isText_iff, ← State.isLaunched_iff]
  refine ⟨fun h => ?_, fun h h' => ?_, fun h h' h'' => ?_⟩ <;> simp_all

/-- Each refusal is one of the three of R204. -/
theorem accessRefusal_eq_some {s : State} {k : Word → Refusal} {a : Word} {r : Refusal} (h : accessRefusal s k a = some r) :
    r = .ioAccess a ∨ r = k a ∨ r = .accessNotAdmitted a := by
  unfold accessRefusal at h
  split_ifs at h <;> simp_all

/-- The checks read the program text and the parameters alone. -/
theorem accessRefusal_congr {s t : State} (ht : t.text = s.text) (hc : t.cfg = s.cfg) (k : Word → Refusal) (a : Word) :
    accessRefusal t k a = accessRefusal s k a := by
  simp [accessRefusal, State.isIo, State.isText, State.isLaunched, ht, hc]

/-- Everything a load can do. -/
theorem loadWord_next {s : State} {a v : Word} : loadWord s a = .next v ↔ Admitted s a ∧ s.mem.read a.toNat = some v := by
  unfold loadWord
  cases h : accessRefusal s .loadFromProgramText a with
  | none =>
    have ha := (accessRefusal_none s _ a).1 h
    rw [and_iff_right ha]
    cases s.mem.read a.toNat <;> simp
  | some r =>
    have ha : ¬ Admitted s a := fun hc => by simp [(accessRefusal_none s Refusal.loadFromProgramText a).2 hc] at h
    simp [ha]

/-- Everything a store can do. -/
theorem storeWord_next {s t : State} {a v : Word} :
    storeWord s a v = .next t ↔ Admitted s a ∧ t = { s with mem := s.mem.write a.toNat v } := by
  unfold storeWord
  cases h : accessRefusal s .storeToProgramText a with
  | none =>
    have ha := (accessRefusal_none s _ a).1 h
    rw [and_iff_right ha]
    simp [eq_comm]
  | some r =>
    have ha : ¬ Admitted s a := fun hc => by simp [(accessRefusal_none s Refusal.storeToProgramText a).2 hc] at h
    simp [ha]

/-- An instruction continues exactly when its access answers. -/
theorem andThen_next {α β : Type} {o : Host.Outcome α Fault Refusal} {k : α → β} {y : β} :
    andThen o k = .next y ↔ ∃ x, o = .next x ∧ y = k x := by
  cases o <;> simp [andThen, eq_comm]

@[simp] theorem andThen_of_next {α β : Type} (x : α) (k : α → β) :
    andThen (.next x : Host.Outcome α Fault Refusal) k = .next (k x) := rfl
@[simp] theorem andThen_of_fault {α β : Type} (f : Fault) (k : α → β) :
    andThen (.fault f : Host.Outcome α Fault Refusal) k = .fault f := rfl
@[simp] theorem andThen_of_refused {α β : Type} (r : Refusal) (k : α → β) :
    andThen (.refused r : Host.Outcome α Fault Refusal) k = .refused r := rfl

/-- A step answers a next state only by performing the decoded instruction (R6). -/
theorem step_next {s t : State} (h : step s = .next t) : ∃ i, fetchDecode s = .next i ∧ exec i s = .next t := by
  unfold step at h
  cases hf : fetchDecode s with
  | next i => exact ⟨i, rfl, by simpa [hf] using h⟩
  | fault f => simp [hf] at h
  | refused r => simp [hf] at h

end Sys2Proof.Machine
end

