-- ==== Sys2Proof/Laws/Encoding.lean ====
section
/-! SUPPORT. The register field and its register are one to one (R10); when a label has an encoding, and which (R78). -/

namespace Sys2Proof

@[simp] theorem Reg.ofBits_bits (r : Reg) : Reg.ofBits r.bits = r := by
  cases r <;> rfl

@[simp] theorem Reg.bits_ofBits (k : BitVec 3) : (Reg.ofBits k).bits = k := by
  revert k; decide

theorem labelImm8_eq_some {a t : Word} {k : BitVec 8} :
    labelImm8 a t = some k ↔ (-128 ≤ labelDistance a t ∧ labelDistance a t ≤ 127) ∧ BitVec.ofInt 8 (labelDistance a t) = k := by
  simp [labelImm8]

theorem labelImm8_eq_none {a t : Word} : labelImm8 a t = none ↔ labelDistance a t < -128 ∨ 127 < labelDistance a t := by
  simp only [labelImm8, ite_eq_right_iff, reduceCtorEq, imp_false]
  omega

end Sys2Proof
end

