-- ==== Sys2Proof/Laws/Memory.lean ====
section
/-! SUPPORT. The laws of memory: read after write, and that every memory operation keeps the canonical form. -/

namespace Sys2Proof.Machine

@[simp] theorem Memory.read_nil (a : Nat) : Memory.read [] a = none := rfl

@[simp] theorem Memory.read_write_same (m : Memory) (a : Nat) (w : Word) : (Memory.write m a w).read a = some w := by
  induction m with
  | nil => simp [Memory.write, Memory.read]
  | cons x m ih =>
    obtain ⟨k, v⟩ := x
    unfold Memory.write
    split_ifs with h1 h2
    · simp [Memory.read]
    · simp [Memory.read]
    · simp [Memory.read, ih, Ne.symm h2]

@[simp] theorem Memory.read_write_ne (m : Memory) {a b : Nat} (w : Word) (h : b ≠ a) :
    (Memory.write m a w).read b = Memory.read m b := by
  induction m with
  | nil => simp [Memory.write, Memory.read, Ne.symm h]
  | cons x m ih =>
    obtain ⟨k, v⟩ := x
    unfold Memory.write
    split_ifs with h1 h2
    · simp [Memory.read, Ne.symm h]
    · subst h2; simp [Memory.read, Ne.symm h]
    · simp [Memory.read, ih]

/-- The addresses listed after a write are those listed before and the one written. -/
theorem Memory.mem_write {m : Memory} {a : Nat} {w : Word} {x : Cell} (h : x ∈ Memory.write m a w) :
    x = (a, w) ∨ x ∈ m := by
  induction m with
  | nil => simpa [Memory.write] using h
  | cons y m ih =>
    obtain ⟨k, v⟩ := y
    unfold Memory.write at h
    split_ifs at h with h1 h2
    · simpa using h
    · rcases List.mem_cons.1 h with h | h
      · exact .inl h
      · exact .inr (List.mem_cons_of_mem _ h)
    · rcases List.mem_cons.1 h with h | h
      · exact .inr (h ▸ List.mem_cons_self)
      · exact (ih h).imp_right (List.mem_cons_of_mem _)

/-- A write below 2^16 keeps the canonical form. -/
theorem Memory.write_wf {m : Memory} {a : Nat} {w : Word} (hm : m.wf) (ha : a < spaceSize) : (Memory.write m a w).wf := by
  refine ⟨?_, fun x hx => (Memory.mem_write hx).elim (fun e => e ▸ ha) (hm.2 x)⟩
  have hp := hm.1
  clear hm
  induction m with
  | nil => simp [Memory.write]
  | cons y m ih =>
    obtain ⟨k, v⟩ := y
    obtain ⟨hk, hp'⟩ := List.pairwise_cons.1 hp
    unfold Memory.write
    split_ifs with h1 h2
    · refine List.pairwise_cons.2 ⟨fun x hx => ?_, hp⟩
      rcases List.mem_cons.1 hx with rfl | hx
      · exact h1
      · exact lt_trans h1 (hk x hx)
    · subst h2; exact List.pairwise_cons.2 ⟨hk, hp'⟩
    · refine List.pairwise_cons.2 ⟨fun x hx => ?_, ih hp'⟩
      rcases Memory.mem_write hx with rfl | hx
      · exact lt_of_le_of_ne (not_lt.1 h1) (Ne.symm h2)
      · exact hk x hx

/-- The data memory and the program text are canonical at reset. -/
theorem State.reset_memories_wf : State.reset.mem.wf ∧ State.reset.text.wf := by decide

/-- A listed word is read where the memory is canonical. -/
theorem Memory.read_of_mem {m : Memory} (hm : m.wf) {x : Cell} (hx : x ∈ m) : Memory.read m x.1 = some x.2 := by
  have hp := hm.1
  clear hm
  induction m with
  | nil => cases hx
  | cons y m ih =>
    obtain ⟨k, v⟩ := y
    obtain ⟨hk, hp'⟩ := List.pairwise_cons.1 hp
    rcases List.mem_cons.1 hx with rfl | hx
    · simp [Memory.read]
    · simp [Memory.read, (hk x hx).ne, ih hx hp']

end Sys2Proof.Machine
end

