-- ==== Sys2Proof/Laws/PerInstr.lean ====
section
/-! SUPPORT. Statements made per instruction, one lemma per constructor. Family CanonicalWord: the encoder writes 0 in
every unused bit of the instruction (spec/30_encoding.md R62, R81). -/

namespace Sys2Proof.Laws.CanonicalWord

/-- The canonical word has no unused bit set (R62, R81). -/
def Statement (i : Instr) : Prop := i.wf = true → encode i &&& unusedBits i = 0#16

/-! ## The formats -/

theorem formatAReg_low (op : BitVec 5) (rd ra rb : BitVec 3) : formatAReg op rd ra rb &&& 0x0003#16 = 0#16 := by
  ext k hk
  interval_cases k <;> simp [formatAReg, place]

theorem formatAImm_imm4 (op : BitVec 5) (rd ra : BitVec 3) (imm4 : BitVec 4) :
    formatAImm op rd ra (imm4.setWidth 5) &&& 0x0010#16 = 0#16 := by
  ext k hk
  interval_cases k <;> simp [formatAImm, place]

theorem formatE_unused (u l : Bool) (ra : Reg) (h : stackOperandWf l ra = true) :
    formatE u l ra.bits &&& stackUnusedBits l = 0#16 := by
  cases u <;> cases l <;> cases ra <;> first | decide | simp [stackOperandWf] at h

/-! ## One lemma per constructor -/


theorem add (rd ra rb : Reg) : Statement (.add rd ra rb) :=
  fun _ => formatAReg_low _ _ _ _

theorem addi (rd ra : Reg) (imm5 : BitVec 5) : Statement (.addi rd ra imm5) :=
  fun _ => BitVec.and_zero

theorem addib (rd : Reg) (imm8 : BitVec 8) : Statement (.addib rd imm8) :=
  fun _ => BitVec.and_zero

theorem adc (rd ra rb : Reg) : Statement (.adc rd ra rb) :=
  fun _ => formatAReg_low _ _ _ _

theorem adci (rd ra : Reg) (imm5 : BitVec 5) : Statement (.adci rd ra imm5) :=
  fun _ => BitVec.and_zero

theorem neg (rd : Reg) : Statement (.neg rd) := by
  intro _; cases rd <;> decide

theorem sub (rd ra rb : Reg) : Statement (.sub rd ra rb) :=
  fun _ => formatAReg_low _ _ _ _

theorem subi (rd ra : Reg) (imm5 : BitVec 5) : Statement (.subi rd ra imm5) :=
  fun _ => BitVec.and_zero

theorem subib (rd : Reg) (imm8 : BitVec 8) : Statement (.subib rd imm8) :=
  fun _ => BitVec.and_zero

theorem suc (rd ra rb : Reg) : Statement (.suc rd ra rb) :=
  fun _ => formatAReg_low _ _ _ _

theorem suci (rd ra : Reg) (imm5 : BitVec 5) : Statement (.suci rd ra imm5) :=
  fun _ => BitVec.and_zero

theorem cmp (ra rb : Reg) : Statement (.cmp ra rb) := by
  intro _; cases ra <;> cases rb <;> decide

theorem and (rd ra rb : Reg) : Statement (.and rd ra rb) :=
  fun _ => formatAReg_low _ _ _ _

theorem or (rd ra rb : Reg) : Statement (.or rd ra rb) :=
  fun _ => formatAReg_low _ _ _ _

theorem xor (rd ra rb : Reg) : Statement (.xor rd ra rb) :=
  fun _ => formatAReg_low _ _ _ _

theorem not (rd ra : Reg) : Statement (.not rd ra) := by
  intro _; cases rd <;> cases ra <;> decide

theorem nand (rd ra rb : Reg) : Statement (.nand rd ra rb) :=
  fun _ => formatAReg_low _ _ _ _

theorem nor (rd ra rb : Reg) : Statement (.nor rd ra rb) :=
  fun _ => formatAReg_low _ _ _ _

theorem lsl (rd ra : Reg) (imm4 : BitVec 4) : Statement (.lsl rd ra imm4) :=
  fun _ => formatAImm_imm4 _ _ _ _

theorem lsr (rd ra : Reg) (imm4 : BitVec 4) : Statement (.lsr rd ra imm4) :=
  fun _ => formatAImm_imm4 _ _ _ _

theorem asr (rd ra : Reg) (imm4 : BitVec 4) : Statement (.asr rd ra imm4) :=
  fun _ => formatAImm_imm4 _ _ _ _

theorem ldw (rd ra : Reg) (imm5 : BitVec 5) : Statement (.ldw rd ra imm5) :=
  fun _ => BitVec.and_zero

theorem stw (rd ra : Reg) (imm5 : BitVec 5) : Statement (.stw rd ra imm5) :=
  fun _ => BitVec.and_zero

theorem lui (rd : Reg) (imm8 : BitVec 8) : Statement (.lui rd imm8) :=
  fun _ => BitVec.and_zero

theorem lli (rd : Reg) (imm8 : BitVec 8) : Statement (.lli rd imm8) :=
  fun _ => BitVec.and_zero

theorem br (imm8 : BitVec 8) : Statement (.br imm8) :=
  fun _ => BitVec.and_zero

theorem bne (imm8 : BitVec 8) : Statement (.bne imm8) :=
  fun _ => BitVec.and_zero

theorem be (imm8 : BitVec 8) : Statement (.be imm8) :=
  fun _ => BitVec.and_zero

theorem blt (imm8 : BitVec 8) : Statement (.blt imm8) :=
  fun _ => BitVec.and_zero

theorem bge (imm8 : BitVec 8) : Statement (.bge imm8) :=
  fun _ => BitVec.and_zero

theorem bwl (imm8 : BitVec 8) : Statement (.bwl imm8) :=
  fun _ => BitVec.and_zero

theorem ret : Statement (.ret) := by
  intro _; decide

theorem jmp (ra : Reg) (imm5 : BitVec 5) : Statement (.jmp ra imm5) :=
  fun _ => BitVec.and_zero

theorem push (link : Bool) (ra : Reg) : Statement (.push link ra) :=
  fun h => formatE_unused _ link ra h

theorem pop (link : Bool) (ra : Reg) : Statement (.pop link ra) :=
  fun h => formatE_unused _ link ra h

end Sys2Proof.Laws.CanonicalWord
end

