-- ==== Sys2Proof/Laws/State.lean ====
section
/-! SUPPORT. What each update of the state does to each field, so that no later proof unfolds a record update. -/

namespace Sys2Proof.Machine

/-! ## General registers -/

@[simp] theorem Regs.get_set_same (g : Regs) (r : Reg) (v : Word) : (g.set r v).get r = v := by
  cases r <;> rfl

@[simp] theorem Regs.get_set_ne (g : Regs) {r q : Reg} (v : Word) (h : q ≠ r) : (g.set r v).get q = g.get q := by
  cases r <;> cases q <;> first | rfl | exact absurd rfl h

@[simp] theorem Regs.set_get_self (g : Regs) (r : Reg) : g.set r (g.get r) = g := by
  cases r <;> rfl

/-! ## Updates with one field of their own -/

@[simp] theorem State.setReg_pc (s : State) (r : Reg) (v : Word) : (s.setReg r v).pc = s.pc := rfl
@[simp] theorem State.setReg_sp (s : State) (r : Reg) (v : Word) : (s.setReg r v).sp = s.sp := rfl
@[simp] theorem State.setReg_lr (s : State) (r : Reg) (v : Word) : (s.setReg r v).lr = s.lr := rfl
@[simp] theorem State.setReg_flags (s : State) (r : Reg) (v : Word) : (s.setReg r v).flags = s.flags := rfl
@[simp] theorem State.setReg_mem (s : State) (r : Reg) (v : Word) : (s.setReg r v).mem = s.mem := rfl
@[simp] theorem State.setReg_text (s : State) (r : Reg) (v : Word) : (s.setReg r v).text = s.text := rfl
@[simp] theorem State.setReg_cfg (s : State) (r : Reg) (v : Word) : (s.setReg r v).cfg = s.cfg := rfl
@[simp] theorem State.setReg_regs (s : State) (r : Reg) (v : Word) : (s.setReg r v).regs = s.regs.set r v := rfl

@[simp] theorem State.reg_setReg_same (s : State) (r : Reg) (v : Word) : (s.setReg r v).reg r = v :=
  Regs.get_set_same s.regs r v

@[simp] theorem State.reg_setReg_ne (s : State) {r q : Reg} (v : Word) (h : q ≠ r) : (s.setReg r v).reg q = s.reg q :=
  Regs.get_set_ne s.regs v h

@[simp] theorem State.setFlags_regs (s : State) (f : Flags) : (s.setFlags f).regs = s.regs := rfl
@[simp] theorem State.setFlags_reg (s : State) (f : Flags) (r : Reg) : (s.setFlags f).reg r = s.reg r := rfl
@[simp] theorem State.setFlags_pc (s : State) (f : Flags) : (s.setFlags f).pc = s.pc := rfl
@[simp] theorem State.setFlags_sp (s : State) (f : Flags) : (s.setFlags f).sp = s.sp := rfl
@[simp] theorem State.setFlags_lr (s : State) (f : Flags) : (s.setFlags f).lr = s.lr := rfl
@[simp] theorem State.setFlags_flags (s : State) (f : Flags) : (s.setFlags f).flags = f := rfl
@[simp] theorem State.setFlags_mem (s : State) (f : Flags) : (s.setFlags f).mem = s.mem := rfl
@[simp] theorem State.setFlags_text (s : State) (f : Flags) : (s.setFlags f).text = s.text := rfl
@[simp] theorem State.setFlags_cfg (s : State) (f : Flags) : (s.setFlags f).cfg = s.cfg := rfl

@[simp] theorem State.setZ_regs (s : State) (z : Bool) : (s.setZ z).regs = s.regs := rfl
@[simp] theorem State.setZ_reg (s : State) (z : Bool) (r : Reg) : (s.setZ z).reg r = s.reg r := rfl
@[simp] theorem State.setZ_pc (s : State) (z : Bool) : (s.setZ z).pc = s.pc := rfl
@[simp] theorem State.setZ_sp (s : State) (z : Bool) : (s.setZ z).sp = s.sp := rfl
@[simp] theorem State.setZ_lr (s : State) (z : Bool) : (s.setZ z).lr = s.lr := rfl
@[simp] theorem State.setZ_flags (s : State) (z : Bool) : (s.setZ z).flags = { s.flags with z := z } := rfl
@[simp] theorem State.setZ_mem (s : State) (z : Bool) : (s.setZ z).mem = s.mem := rfl
@[simp] theorem State.setZ_text (s : State) (z : Bool) : (s.setZ z).text = s.text := rfl
@[simp] theorem State.setZ_cfg (s : State) (z : Bool) : (s.setZ z).cfg = s.cfg := rfl

@[simp] theorem State.setPc_regs (s : State) (t : Word) : (s.setPc t).regs = s.regs := rfl
@[simp] theorem State.setPc_reg (s : State) (t : Word) (r : Reg) : (s.setPc t).reg r = s.reg r := rfl
@[simp] theorem State.setPc_pc (s : State) (t : Word) : (s.setPc t).pc = t := rfl
@[simp] theorem State.setPc_sp (s : State) (t : Word) : (s.setPc t).sp = s.sp := rfl
@[simp] theorem State.setPc_lr (s : State) (t : Word) : (s.setPc t).lr = s.lr := rfl
@[simp] theorem State.setPc_flags (s : State) (t : Word) : (s.setPc t).flags = s.flags := rfl
@[simp] theorem State.setPc_mem (s : State) (t : Word) : (s.setPc t).mem = s.mem := rfl
@[simp] theorem State.setPc_text (s : State) (t : Word) : (s.setPc t).text = s.text := rfl
@[simp] theorem State.setPc_cfg (s : State) (t : Word) : (s.setPc t).cfg = s.cfg := rfl
@[simp] theorem State.setPc_getSp (s : State) (t : Word) : (s.setPc t).getSp = s.getSp := rfl
@[simp] theorem State.setPc_getLr (s : State) (t : Word) : (s.setPc t).getLr = s.getLr := rfl

@[simp] theorem State.advance_regs (s : State) : s.advance.regs = s.regs := rfl
@[simp] theorem State.advance_reg (s : State) (r : Reg) : s.advance.reg r = s.reg r := rfl
@[simp] theorem State.advance_pc (s : State) : s.advance.pc = s.pc + 1 := rfl
@[simp] theorem State.advance_sp (s : State) : s.advance.sp = s.sp := rfl
@[simp] theorem State.advance_lr (s : State) : s.advance.lr = s.lr := rfl
@[simp] theorem State.advance_flags (s : State) : s.advance.flags = s.flags := rfl
@[simp] theorem State.advance_mem (s : State) : s.advance.mem = s.mem := rfl
@[simp] theorem State.advance_text (s : State) : s.advance.text = s.text := rfl
@[simp] theorem State.advance_cfg (s : State) : s.advance.cfg = s.cfg := rfl
@[simp] theorem State.advance_getSp (s : State) : s.advance.getSp = s.getSp := rfl
@[simp] theorem State.advance_getLr (s : State) : s.advance.getLr = s.getLr := rfl

/-! ## SP and LR, wherever SP_ALIAS and LR_ALIAS put them (R12, R13) -/

section
variable (s : State) (v : Word)

@[simp] theorem State.setSp_pc : (s.setSp v).pc = s.pc := by unfold State.setSp; split <;> rfl
@[simp] theorem State.setSp_lr : (s.setSp v).lr = s.lr := by unfold State.setSp; split <;> rfl
@[simp] theorem State.setSp_flags : (s.setSp v).flags = s.flags := by unfold State.setSp; split <;> rfl
@[simp] theorem State.setSp_mem : (s.setSp v).mem = s.mem := by unfold State.setSp; split <;> rfl
@[simp] theorem State.setSp_text : (s.setSp v).text = s.text := by unfold State.setSp; split <;> rfl
@[simp] theorem State.setSp_cfg : (s.setSp v).cfg = s.cfg := by unfold State.setSp; split <;> rfl

@[simp] theorem State.getSp_setSp : (s.setSp v).getSp = v := by
  unfold State.getSp; rw [State.setSp_cfg]; unfold State.setSp
  split <;> simp

/-- A general register that is not SP keeps its value when SP is written. -/
theorem State.reg_setSp {r : Reg} (h : s.cfg.spAlias ≠ some r) : (s.setSp v).reg r = s.reg r := by
  unfold State.setSp
  split
  · rfl
  · next q hq => exact State.reg_setReg_ne s v (fun e => h (e ▸ hq))

@[simp] theorem State.setLr_pc : (s.setLr v).pc = s.pc := by unfold State.setLr; split <;> rfl
@[simp] theorem State.setLr_sp : (s.setLr v).sp = s.sp := by unfold State.setLr; split <;> rfl
@[simp] theorem State.setLr_flags : (s.setLr v).flags = s.flags := by unfold State.setLr; split <;> rfl
@[simp] theorem State.setLr_mem : (s.setLr v).mem = s.mem := by unfold State.setLr; split <;> rfl
@[simp] theorem State.setLr_text : (s.setLr v).text = s.text := by unfold State.setLr; split <;> rfl
@[simp] theorem State.setLr_cfg : (s.setLr v).cfg = s.cfg := by unfold State.setLr; split <;> rfl

@[simp] theorem State.getLr_setLr : (s.setLr v).getLr = v := by
  unfold State.getLr; rw [State.setLr_cfg]; unfold State.setLr
  split <;> simp

/-- A general register that is not LR keeps its value when LR is written. -/
theorem State.reg_setLr {r : Reg} (h : s.cfg.lrAlias ≠ some r) : (s.setLr v).reg r = s.reg r := by
  unfold State.setLr
  split
  · rfl
  · next q hq => exact State.reg_setReg_ne s v (fun e => h (e ▸ hq))

/-- Where SP is a general register, the `sp` field is not used. -/
theorem State.setSp_sp_of_alias (h : s.cfg.spAlias ≠ none) : (s.setSp v).sp = s.sp := by
  unfold State.setSp
  split
  · contradiction
  · rfl

/-- Where LR is a general register, the `lr` field is not used. -/
theorem State.setLr_lr_of_alias (h : s.cfg.lrAlias ≠ none) : (s.setLr v).lr = s.lr := by
  unfold State.setLr
  split
  · contradiction
  · rfl

/-- Writing a general register that is not SP leaves SP. -/
theorem State.getSp_setReg {r : Reg} (h : s.cfg.spAlias ≠ some r) : (s.setReg r v).getSp = s.getSp := by
  unfold State.getSp
  rw [State.setReg_cfg]
  split
  · rfl
  · next q hq => exact State.reg_setReg_ne s v (fun e => h (e ▸ hq))

/-- Writing LR leaves SP, unless both are one general register. -/
theorem State.getSp_setLr (h : s.cfg.spAlias = none ∨ s.cfg.spAlias ≠ s.cfg.lrAlias) : (s.setLr v).getSp = s.getSp := by
  unfold State.getSp
  rw [State.setLr_cfg]
  split
  · exact State.setLr_sp s v
  · next q hq =>
    refine State.reg_setLr s v (fun e => ?_)
    rcases h with h | h
    · simp [h] at hq
    · exact h (hq.trans e.symm)

variable (link : Bool) (ra : Reg)

@[simp] theorem State.setStackDest_pc : (s.setStackDest link ra v).pc = s.pc := by cases link <;> simp [State.setStackDest]
@[simp] theorem State.setStackDest_sp : (s.setStackDest link ra v).sp = s.sp := by cases link <;> simp [State.setStackDest]
@[simp] theorem State.setStackDest_flags : (s.setStackDest link ra v).flags = s.flags := by
  cases link <;> simp [State.setStackDest]
@[simp] theorem State.setStackDest_mem : (s.setStackDest link ra v).mem = s.mem := by
  cases link <;> simp [State.setStackDest]
@[simp] theorem State.setStackDest_text : (s.setStackDest link ra v).text = s.text := by
  cases link <;> simp [State.setStackDest]
@[simp] theorem State.setStackDest_cfg : (s.setStackDest link ra v).cfg = s.cfg := by
  cases link <;> simp [State.setStackDest]

end

/-! ## What an instruction of one shape writes -/

section
variable (s : State) (rd : Reg) (a b res : Word) (cin : Bool)

@[simp] theorem addInto_reg : (addInto s rd a b cin).reg rd = adderResult a b cin := by simp [addInto]
@[simp] theorem addInto_reg_ne {r : Reg} (h : r ≠ rd) : (addInto s rd a b cin).reg r = s.reg r := by simp [addInto, h]
@[simp] theorem addInto_pc : (addInto s rd a b cin).pc = s.pc + 1 := rfl
@[simp] theorem addInto_sp : (addInto s rd a b cin).sp = s.sp := rfl
@[simp] theorem addInto_lr : (addInto s rd a b cin).lr = s.lr := rfl
@[simp] theorem addInto_flags : (addInto s rd a b cin).flags = adderFlags a b cin := rfl
@[simp] theorem addInto_mem : (addInto s rd a b cin).mem = s.mem := rfl
@[simp] theorem addInto_text : (addInto s rd a b cin).text = s.text := rfl
@[simp] theorem addInto_cfg : (addInto s rd a b cin).cfg = s.cfg := rfl

@[simp] theorem logicInto_reg : (logicInto s rd res).reg rd = res := by simp [logicInto]
@[simp] theorem logicInto_reg_ne {r : Reg} (h : r ≠ rd) : (logicInto s rd res).reg r = s.reg r := by simp [logicInto, h]
@[simp] theorem logicInto_pc : (logicInto s rd res).pc = s.pc + 1 := rfl
@[simp] theorem logicInto_sp : (logicInto s rd res).sp = s.sp := rfl
@[simp] theorem logicInto_lr : (logicInto s rd res).lr = s.lr := rfl
@[simp] theorem logicInto_flags : (logicInto s rd res).flags = { s.flags with z := decide (res = 0x0000#16) } := rfl
@[simp] theorem logicInto_mem : (logicInto s rd res).mem = s.mem := rfl
@[simp] theorem logicInto_text : (logicInto s rd res).text = s.text := rfl
@[simp] theorem logicInto_cfg : (logicInto s rd res).cfg = s.cfg := rfl

@[simp] theorem moveInto_reg : (moveInto s rd res).reg rd = res := by simp [moveInto]
@[simp] theorem moveInto_reg_ne {r : Reg} (h : r ≠ rd) : (moveInto s rd res).reg r = s.reg r := by simp [moveInto, h]
@[simp] theorem moveInto_pc : (moveInto s rd res).pc = s.pc + 1 := rfl
@[simp] theorem moveInto_sp : (moveInto s rd res).sp = s.sp := rfl
@[simp] theorem moveInto_lr : (moveInto s rd res).lr = s.lr := rfl
@[simp] theorem moveInto_flags : (moveInto s rd res).flags = s.flags := rfl
@[simp] theorem moveInto_mem : (moveInto s rd res).mem = s.mem := rfl
@[simp] theorem moveInto_text : (moveInto s rd res).text = s.text := rfl
@[simp] theorem moveInto_cfg : (moveInto s rd res).cfg = s.cfg := rfl

end

end Sys2Proof.Machine
end

