-- ==== Sys2Proof/Tests/Slice0.lean ====
section
/-! SUPPORT. Tests and witnesses. Expected values are those of spec/95_test_vectors.md, whose section each group names;
words are written out from the encoding of spec/30_encoding.md. A witness shows a concrete case that meets the hypotheses
of the statement of Certificates/Slice0/Obligations.lean it is named after. -/

namespace Sys2Proof.Tests

open Sys2Proof.Machine
open Sys2Proof.Claims

/-! ## Helpers -/

/-- The flags written as the four digits c v n z. -/
def cvnz (k : BitVec 4) : Flags := ⟨k.getLsbD 3, k.getLsbD 2, k.getLsbD 1, k.getLsbD 0⟩

/-- The reset state at address 0x0010 with the given flags and register values. -/
def start (k : BitVec 4) (rs : List (Reg × Word)) : State :=
  rs.foldl (fun s p => s.setReg p.1 p.2) { State.reset with pc := 0x0010, flags := cvnz k }

/-- What `f` sees in the state after one step that runs the word `w`, if the step completes. -/
def after {α : Type} (s : State) (w : Nat) (f : State → α) : Option α :=
  match step (s.withFetchWord 16 w) with
  | .next t => some (f t)
  | _ => none

/-- The stop of the one step that runs the word `w`, if it stops. -/
def stopOf (s : State) (w : Nat) : Option (Fault ⊕ Refusal) :=
  match step (s.withFetchWord 16 w) with
  | .next _ => none
  | .fault f => some (.inl f)
  | .refused r => some (.inr r)

/-- R5 and the flags. -/
def r5 (s : State) : Word × Flags := (s.reg .r5, s.flags)

/-! ## Well-formedness: `PUSH LR` and `POP LR` name no general register (R79) -/

theorem test_wf_push_lr_refuses_ra : (Instr.push true .r3).wf = false := by decide
theorem test_wf_pop_lr_refuses_ra : (Instr.pop true .r1).wf = false := by decide
theorem test_wf_push_lr : (Instr.push true .r0).wf = true := by decide
theorem test_wf_pop_r7 : (Instr.pop false .r7).wf = true := by decide

/-! ## Decoding, section 2.1: one word for each constructor -/

theorem test_decode_lsl : decode 0b0000110101100011#16 = .ok (.lsl .r5 .r3 3) := by decide
theorem test_decode_lsr : decode 0b0001010101100011#16 = .ok (.lsr .r5 .r3 3) := by decide
theorem test_decode_asr : decode 0b0001110101100011#16 = .ok (.asr .r5 .r3 3) := by decide
theorem test_decode_add : decode 0b0010010101110000#16 = .ok (.add .r5 .r3 .r4) := by decide
theorem test_decode_addi : decode 0b0010110101101001#16 = .ok (.addi .r5 .r3 9) := by decide
theorem test_decode_adc : decode 0b0011010101110000#16 = .ok (.adc .r5 .r3 .r4) := by decide
theorem test_decode_adci : decode 0b0011110101101001#16 = .ok (.adci .r5 .r3 9) := by decide
theorem test_decode_neg : decode 0b0100010100000000#16 = .ok (.neg .r5) := by decide
theorem test_decode_sub : decode 0b0100110101110000#16 = .ok (.sub .r5 .r3 .r4) := by decide
theorem test_decode_subi : decode 0b0101010101101001#16 = .ok (.subi .r5 .r3 9) := by decide
theorem test_decode_suc : decode 0b0101110101110000#16 = .ok (.suc .r5 .r3 .r4) := by decide
theorem test_decode_suci : decode 0b0110010101101001#16 = .ok (.suci .r5 .r3 9) := by decide
theorem test_decode_cmp : decode 0b0110100001110000#16 = .ok (.cmp .r3 .r4) := by decide
theorem test_decode_and : decode 0b1000010101110000#16 = .ok (.and .r5 .r3 .r4) := by decide
theorem test_decode_or : decode 0b1000110101110000#16 = .ok (.or .r5 .r3 .r4) := by decide
theorem test_decode_xor : decode 0b1001010101110000#16 = .ok (.xor .r5 .r3 .r4) := by decide
theorem test_decode_not : decode 0b1001110101100000#16 = .ok (.not .r5 .r3) := by decide
theorem test_decode_nand : decode 0b1010010101110000#16 = .ok (.nand .r5 .r3 .r4) := by decide
theorem test_decode_ldw : decode 0b1010110101100111#16 = .ok (.ldw .r5 .r3 7) := by decide
theorem test_decode_nor : decode 0b1011010101110000#16 = .ok (.nor .r5 .r3 .r4) := by decide
theorem test_decode_addib : decode 0b1100010110010110#16 = .ok (.addib .r5 150) := by decide
theorem test_decode_subib : decode 0b1100110110010110#16 = .ok (.subib .r5 150) := by decide
theorem test_decode_lui : decode 0b1101010110010110#16 = .ok (.lui .r5 150) := by decide
theorem test_decode_lli : decode 0b1101110110010110#16 = .ok (.lli .r5 150) := by decide
theorem test_decode_pop : decode 0b1110000001100000#16 = .ok (.pop false .r3) := by decide
theorem test_decode_pop_lr : decode 0b1110001000000000#16 = .ok (.pop true .r0) := by decide
theorem test_decode_push : decode 0b1110010001100000#16 = .ok (.push false .r3) := by decide
theorem test_decode_push_lr : decode 0b1110011000000000#16 = .ok (.push true .r0) := by decide
theorem test_decode_stw : decode 0b1110110101100111#16 = .ok (.stw .r5 .r3 7) := by decide
theorem test_decode_br : decode 0b1111100011111111#16 = .ok (.br 0xFF) := by decide
theorem test_decode_jmp : decode 0b1111100101100010#16 = .ok (.jmp .r3 2) := by decide
theorem test_decode_ret : decode 0b1111101000000000#16 = .ok .ret := by decide
theorem test_decode_bwl : decode 0b1111101100000001#16 = .ok (.bwl 1) := by decide
theorem test_decode_blt : decode 0b1111110000000010#16 = .ok (.blt 2) := by decide
theorem test_decode_bge : decode 0b1111110100000010#16 = .ok (.bge 2) := by decide
theorem test_decode_bne : decode 0b1111111011111101#16 = .ok (.bne 0xFD) := by decide
theorem test_decode_be : decode 0b1111111100000010#16 = .ok (.be 2) := by decide

/-! ## Words that select no instruction, section 2.2 -/

theorem test_illegal_0000 : decode 0x0000#16 = .error (.unassignedOpcode 0b00000) := by decide
theorem test_illegal_07ff : decode 0x07FF#16 = .error (.unassignedOpcode 0b00000) := by decide
theorem test_illegal_7000 : decode 0x7000#16 = .error (.unassignedOpcode 0b01110) := by decide
theorem test_illegal_7fff : decode 0x7FFF#16 = .error (.unassignedOpcode 0b01111) := by decide
theorem test_illegal_b800 : decode 0xB800#16 = .error (.unassignedOpcode 0b10111) := by decide
theorem test_illegal_f7ff : decode 0xF7FF#16 = .error (.unassignedOpcode 0b11110) := by decide
theorem test_illegal_word_faults : stopOf State.reset 0x7800 = some (.inl (.illegalInstruction 0x7800 0x0000)) := by decide

/-! ## Unused bits set, section 2.3 -/

theorem test_unused_add : decode 0x2573#16 = .ok (.add .r5 .r3 .r4) ∧ encode (.add .r5 .r3 .r4) = 0x2570 := by decide
theorem test_unused_neg : decode 0x45FF#16 = .ok (.neg .r5) ∧ encode (.neg .r5) = 0x4500 := by decide
theorem test_unused_cmp : decode 0x6F70#16 = .ok (.cmp .r3 .r4) ∧ encode (.cmp .r3 .r4) = 0x6870 := by decide
theorem test_unused_not : decode 0x9D7F#16 = .ok (.not .r5 .r3) ∧ encode (.not .r5 .r3) = 0x9D60 := by decide
theorem test_unused_lsl : decode 0x0D73#16 = .ok (.lsl .r5 .r3 3) ∧ encode (.lsl .r5 .r3 3) = 0x0D63 := by decide
theorem test_unused_push_lr : decode 0xE7FF#16 = .ok (.push true .r0) ∧ encode (.push true .r0) = 0xE600 := by decide
theorem test_unused_pop : decode 0xE1FF#16 = .ok (.pop false .r7) ∧ encode (.pop false .r7) = 0xE0E0 := by decide
theorem test_unused_ret : decode 0xFAFF#16 = .ok .ret ∧ encode .ret = 0xFA00 := by decide
theorem test_strict_refuses_unused :
    stopOf { State.reset with cfg := { Config.standard with strictUnusedFields := true } } 0x2573 =
      some (.inr (.unusedFieldNonzero 0x2573)) := by decide

/-! ## The adder, section 3 -/

theorem test_adder_sum_0 : adderResult 0x8000 0x8000 false = 0x0000 ∧
    adderFlags 0x8000 0x8000 false = cvnz 0b1101 := by decide
theorem test_adder_sum_1 : adderResult 0x8000 0xFFFF false = 0x7FFF ∧
    adderFlags 0x8000 0xFFFF false = cvnz 0b1100 := by decide
theorem test_adder_sum_2 : adderResult 0xFFFF 0xFFFF true = 0xFFFF ∧
    adderFlags 0xFFFF 0xFFFF true = cvnz 0b1010 := by decide
theorem test_adder_sum_3 : adderResult 0x7FFF 0x0000 true = 0x8000 ∧
    adderFlags 0x7FFF 0x0000 true = cvnz 0b0110 := by decide
theorem test_adder_sum_4 : adderResult 0x8000 0x7FFF true = 0x0000 ∧
    adderFlags 0x8000 0x7FFF true = cvnz 0b1001 := by decide
theorem test_adder_difference_0 : adderResult 0x8000 (~~~ 0x0001) true = 0x7FFF ∧
    adderFlags 0x8000 (~~~ 0x0001) true = cvnz 0b1100 := by decide
theorem test_adder_difference_1 : adderResult 0x7FFF (~~~ 0xFFFF) true = 0x8000 ∧
    adderFlags 0x7FFF (~~~ 0xFFFF) true = cvnz 0b0110 := by decide
theorem test_adder_difference_2 : adderResult 0x0000 (~~~ 0x8000) true = 0x8000 ∧
    adderFlags 0x0000 (~~~ 0x8000) true = cvnz 0b0110 := by decide
theorem test_adder_difference_3 : adderResult 0x8000 (~~~ 0x0000) false = 0x7FFF ∧
    adderFlags 0x8000 (~~~ 0x0000) false = cvnz 0b1100 := by decide
theorem test_adder_difference_4 : adderResult 0x0000 (~~~ 0xFFFF) false = 0x0000 ∧
    adderFlags 0x0000 (~~~ 0xFFFF) false = cvnz 0b0001 := by decide

/-! ## Arithmetic, section 4 -/

theorem test_add_ignores_carry_in : after (start 0b1000 [(.r3, 0xFFFF), (.r4, 0x0001)]) 0x2570 r5 = some (0x0000, cvnz 0b1001) := by decide
theorem test_add_reads_before_writing : after (start 0b0000 [(.r1, 0x4000)]) 0x2124 (·.reg .r1) = some 0x8000 := by decide
theorem test_addi : after (start 0b0000 [(.r3, 0xFFF7)]) 0x2D69 r5 = some (0x0000, cvnz 0b1001) := by decide
theorem test_addi_extends_with_zeros : after (start 0b0000 [(.r1, 0x1234)]) 0x293F (·.reg .r1) = some 0x1253 := by decide
theorem test_adc_carry : after (start 0b1000 [(.r3, 0xFFFF), (.r4, 0xFFFF)]) 0x3570 r5 = some (0xFFFF, cvnz 0b1010) := by decide
theorem test_adc_no_carry : after (start 0b0000 [(.r3, 0x0003), (.r4, 0x0004)]) 0x3570 r5 = some (0x0007, cvnz 0b0000) := by decide
theorem test_adci : after (start 0b1000 [(.r3, 0x0001)]) 0x3D69 r5 = some (0x000B, cvnz 0b0000) := by decide
theorem test_adci_ripples : after (start 0b1000 [(.r3, 0xFFFF)]) 0x3D60 r5 = some (0x0000, cvnz 0b1001) := by decide
theorem test_neg_overflows : after (start 0b0000 [(.r5, 0x8000)]) 0x4500 r5 = some (0x8000, cvnz 0b0110) := by decide
theorem test_neg_zero : after (start 0b0000 [(.r5, 0x0000)]) 0x4500 r5 = some (0x0000, cvnz 0b1001) := by decide
theorem test_sub_borrows : after (start 0b0000 [(.r3, 0x0004), (.r4, 0x0007)]) 0x4D70 r5 = some (0xFFFD, cvnz 0b0010) := by decide
theorem test_sub_overflows : after (start 0b0000 [(.r3, 0x8000), (.r4, 0x0001)]) 0x4D70 r5 = some (0x7FFF, cvnz 0b1100) := by decide
theorem test_subi_zero : after (start 0b0000 [(.r3, 0x0009)]) 0x5569 r5 = some (0x0000, cvnz 0b1001) := by decide
theorem test_subi_borrows : after (start 0b0000 [(.r3, 0x0000)]) 0x5569 r5 = some (0xFFF7, cvnz 0b0010) := by decide
theorem test_suc_no_borrow : after (start 0b1000 [(.r3, 0x0005), (.r4, 0x0005)]) 0x5D70 r5 = some (0x0000, cvnz 0b1001) := by decide
theorem test_suc_borrow : after (start 0b0000 [(.r3, 0x0005), (.r4, 0x0005)]) 0x5D70 r5 = some (0xFFFF, cvnz 0b0010) := by decide
theorem test_suci_borrow : after (start 0b0000 [(.r3, 0x000A)]) 0x6569 r5 = some (0x0000, cvnz 0b1001) := by decide
theorem test_suci_no_borrow : after (start 0b1000 [(.r3, 0x000A)]) 0x6569 r5 = some (0x0001, cvnz 0b1000) := by decide
theorem test_cmp_overflows :
    after (start 0b0000 [(.r0, 0x1111), (.r3, 0x8000), (.r4, 0x0001)]) 0x6870 (fun t => (t.reg .r0, t.flags)) =
      some (0x1111, cvnz 0b1100) := by decide
theorem test_cmp_less : after (start 0b0000 [(.r3, 0x0001), (.r4, 0x0002), (.r5, 0x5555)]) 0x6870 r5 = some (0x5555, cvnz 0b0010) := by decide

/-! ## Logic and shifts, section 5: the flags before are 1110 -/

theorem test_and : after (start 0b1110 [(.r3, 0x0F0F), (.r4, 0x00FF)]) 0x8570 r5 = some (0x000F, cvnz 0b1110) := by decide
theorem test_and_zero : after (start 0b1110 [(.r3, 0xFF00), (.r4, 0x00FF)]) 0x8570 r5 = some (0x0000, cvnz 0b1111) := by decide
theorem test_or : after (start 0b1110 [(.r3, 0x0F0F), (.r4, 0x00FF)]) 0x8D70 r5 = some (0x0FFF, cvnz 0b1110) := by decide
theorem test_or_zero : after (start 0b1110 []) 0x8D70 r5 = some (0x0000, cvnz 0b1111) := by decide
theorem test_xor : after (start 0b1110 [(.r3, 0x0F0F), (.r4, 0x00FF)]) 0x9570 r5 = some (0x0FF0, cvnz 0b1110) := by decide
theorem test_xor_zero : after (start 0b1110 [(.r3, 0xABCD)]) 0x956C r5 = some (0x0000, cvnz 0b1111) := by decide
theorem test_not : after (start 0b1110 [(.r3, 0x0F0F)]) 0x9D60 r5 = some (0xF0F0, cvnz 0b1110) := by decide
theorem test_not_zero : after (start 0b1110 [(.r3, 0xFFFF)]) 0x9D60 r5 = some (0x0000, cvnz 0b1111) := by decide
theorem test_nand : after (start 0b1110 [(.r3, 0x0F0F), (.r4, 0x00FF)]) 0xA570 r5 = some (0xFFF0, cvnz 0b1110) := by decide
theorem test_nand_zero : after (start 0b1110 [(.r3, 0xFFFF), (.r4, 0xFFFF)]) 0xA570 r5 = some (0x0000, cvnz 0b1111) := by decide
theorem test_nor : after (start 0b1110 [(.r3, 0x0F0F), (.r4, 0x00FF)]) 0xB570 r5 = some (0xF000, cvnz 0b1110) := by decide
theorem test_nor_zero : after (start 0b1110 [(.r3, 0xFF00), (.r4, 0x00FF)]) 0xB570 r5 = some (0x0000, cvnz 0b1111) := by decide
theorem test_lsl : after (start 0b1110 [(.r3, 0x1234)]) 0x0D63 r5 = some (0x91A0, cvnz 0b1110) := by decide
theorem test_lsl_drops : after (start 0b1110 [(.r3, 0x8000)]) 0x0D61 r5 = some (0x0000, cvnz 0b1110) := by decide
theorem test_lsr : after (start 0b1110 [(.r3, 0x8234)]) 0x1563 r5 = some (0x1046, cvnz 0b1110) := by decide
theorem test_lsr_15 : after (start 0b1110 [(.r3, 0x8000)]) 0x156F r5 = some (0x0001, cvnz 0b1110) := by decide
theorem test_asr : after (start 0b1110 [(.r3, 0x8234)]) 0x1D63 r5 = some (0xF046, cvnz 0b1110) := by decide
theorem test_asr_15 : after (start 0b1110 [(.r3, 0x8000)]) 0x1D6F r5 = some (0xFFFF, cvnz 0b1110) := by decide

/-! ## Byte immediates, section 6 -/

theorem test_addib : after (start 0b0000 [(.r5, 0x0000)]) 0xC596 r5 = some (0x0096, cvnz 0b0000) := by decide
theorem test_addib_overflows : after (start 0b0000 [(.r5, 0x7FFF)]) 0xC5FF r5 = some (0x80FE, cvnz 0b0110) := by decide
theorem test_subib : after (start 0b0000 [(.r5, 0x0000)]) 0xCD96 r5 = some (0xFF6A, cvnz 0b0010) := by decide
theorem test_subib_zero : after (start 0b0000 [(.r5, 0x0096)]) 0xCD96 r5 = some (0x0000, cvnz 0b1001) := by decide
theorem test_lui : after (start 0b1110 [(.r5, 0x1234)]) 0xD596 r5 = some (0x9634, cvnz 0b1110) := by decide
theorem test_lli : after (start 0b1110 [(.r5, 0x1234)]) 0xDD96 r5 = some (0x1296, cvnz 0b1110) := by decide

/-! ## Data transfer, section 7 -/

/-- The start state with one data word. -/
def withData (a : Nat) (v : Word) (s : State) : State := { s with mem := s.mem.write a v }

/-- The start state with both 5-bit offsets sign-extended. -/
def signed (s : State) : State := { s with cfg := { s.cfg with memImm5Ext := .sign, jmpImm5Ext := .sign } }

theorem test_stw_wraps : after (start 0b0000 [(.r3, 0xFFF8), (.r5, 0x00AA)]) 0xED6F (fun t => (t.mem, r5 t)) =
    some ([(0x0007, 0x00AA)], 0x00AA, cvnz 0b0000) := by decide
theorem test_ldw_old_base : after (withData 0x2000 0x1234 (start 0b0000 [(.r3, 0x2000)])) 0xAB60 (·.reg .r3) =
    some 0x1234 := by decide
theorem test_ldw_sign_extension : after (withData 0x0FF0 0xBEEF (signed (start 0b1110 [(.r3, 0x1000)]))) 0xAD70 r5 =
    some (0xBEEF, cvnz 0b1110) := by decide
theorem test_stw_program_text : stopOf (start 0b0000 [(.r3, 0x0010)]) 0xED60 =
    some (.inr (.storeToProgramText 0x0010)) := by decide

/-! ## Control transfer, section 8: the branch stands at 0x0010 -/

theorem test_br_127 : after (start 0b0000 []) 0xF87F (·.pc) = some 0x0090 := by decide
theorem test_br_wraps : after (start 0b0000 []) 0xF880 (·.pc) = some 0xFF91 := by decide
theorem test_bne_taken : after (start 0b0000 []) 0xFE02 (·.pc) = some 0x0013 := by decide
theorem test_bne_not_taken : after (start 0b0001 []) 0xFE02 (·.pc) = some 0x0011 := by decide
theorem test_be_taken : after (start 0b0001 []) 0xFF02 (·.pc) = some 0x0013 := by decide
theorem test_be_not_taken : after (start 0b0000 []) 0xFF02 (·.pc) = some 0x0011 := by decide
theorem test_blt_taken_on_overflow : after (start 0b0100 []) 0xFC02 (·.pc) = some 0x0013 := by decide
theorem test_blt_not_taken : after (start 0b0110 []) 0xFC02 (·.pc) = some 0x0011 := by decide
theorem test_bge_taken : after (start 0b0110 []) 0xFD02 (·.pc) = some 0x0013 := by decide
theorem test_bge_not_taken_on_overflow : after (start 0b0100 []) 0xFD02 (·.pc) = some 0x0011 := by decide
theorem test_bwl : after (start 0b0000 []) 0xFB01 (fun t => (t.pc, t.lr)) = some (0x0012, 0x0011) := by decide
theorem test_bwl_wraps : after { start 0b0000 [] with pc := 0xFFFF } 0xFB05 (fun t => (t.pc, t.lr)) =
    some (0x0005, 0x0000) := by decide
theorem test_ret : after { start 0b0000 [] with lr := 0x0011 } 0xFA00 (fun t => (t.pc, t.lr)) =
    some (0x0011, 0x0011) := by decide
theorem test_jmp_wraps : after (start 0b0000 [(.r3, 0xFFFF)]) 0xF961 (·.pc) = some 0x0000 := by decide
theorem test_jmp_sign_extension : after (signed (start 0b0000 [(.r3, 0x0100)])) 0xF97F (·.pc) = some 0x00FF := by
  decide

/-! ## Stack, section 9 -/

theorem test_push : after (start 0b0000 [(.r3, 0x1234)]) 0xE460 (fun t => (t.mem, t.sp)) =
    some ([(0xFFFF, 0x1234)], 0xFFFE) := by decide
theorem test_pop_wraps : after (withData 0x0000 0x00AA (start 0b0000 [])) 0xE060 (fun t => (t.reg .r3, t.sp)) =
    some (0x00AA, 0x0000) := by decide
theorem test_pop_lr : after (withData 0xFFFE 0x0003 { start 0b0000 [] with sp := 0xFFFD }) 0xE200
    (fun t => (t.lr, t.sp)) = some (0x0003, 0xFFFE) := by decide

/-! ## Reset and memory -/

theorem test_reset_first_step : step State.reset = .fault (.fetchUndefined 0x0000) := rfl
theorem test_memory_sorted : ((Memory.write [] 7 1).write 3 2).write 7 5 = [(3, 2), (7, 5)] := by decide

/-! ## Witnesses: encoding -/

theorem witness_DecodeInvertsEncode : (Instr.push true .r0).wf = true ∧ (Instr.jmp .r7 31).wf = true := by decide
theorem witness_EncodeClearsUnusedBitsOnly : decode 0xE7FF#16 = .ok (.push true .r0) := by decide
theorem witness_UnusedBitsDoNotMatter :
    decode 0xE7FF#16 = .ok (.push true .r0) ∧ (0xE7FF#16 ^^^ 0xE600#16) &&& ~~~ unusedBits (.push true .r0) = 0#16 := by
  decide
theorem witness_OpcodeMapIsComplete :
    0xFEFD#16 &&& (tableRow (.bne 0)).2 = (tableRow (.bne 0)).1 ∧ (0xF7FF#16).extractLsb' 11 5 = 0b11110#5 := by decide
theorem witness_LabelOffset_backward : labelDistance 0x0100 0x0081 = -128 ∧ labelImm8 0x0100 0x0081 = some 0x80 := by
  decide
theorem witness_LabelOffset_forward : labelDistance 0x0010 0x0090 = 127 ∧ labelImm8 0x0010 0x0090 = some 0x7F := by
  decide
theorem witness_LabelOffset_too_far_backward : labelDistance 0x0100 0x0080 = -129 ∧ labelImm8 0x0100 0x0080 = none := by
  decide
theorem witness_LabelOffset_too_far_forward : labelDistance 0x0010 0x0091 = 128 ∧ labelImm8 0x0010 0x0091 = none := by
  decide
/-- The branches of programs P1 (`BNE loop`) and P4 (`BLT less`), section 10, and the self-branch of R236. -/
theorem test_label_programs : labelImm8 0x0006 0x0004 = some 0xFD ∧ labelImm8 0x0005 0x0008 = some 2 ∧
    labelImm8 0x0009 0x0009 = some 0xFF := by decide

/-! ## Witnesses: the step, launch and invariant -/

/-- The start state with a program of one word. -/
def running (w : Word) : State := { start 0 [] with text := [(0x0010, w)] }

/-- The same under STRICT_UNUSED_FIELDS. -/
def strict (w : Word) : State := { running w with cfg := { Config.standard with strictUnusedFields := true } }

theorem witness_StepRuns_lenient :
    (running 0x2573).text.read (running 0x2573).pc.toNat = some 0x2573 ∧ decode 0x2573#16 = .ok (.add .r5 .r3 .r4) ∧
      (running 0x2573).cfg.strictUnusedFields = false := by decide
theorem witness_StepRuns_strict :
    (strict 0x2570).text.read (strict 0x2570).pc.toNat = some 0x2570 ∧ decode 0x2570#16 = .ok (.add .r5 .r3 .r4) ∧
      0x2570#16 &&& unusedBits (.add .r5 .r3 .r4) = 0#16 := by decide
theorem witness_StepStops_fetch : State.reset.text.read State.reset.pc.toNat = none := by decide
theorem witness_StepStops_decode :
    (running 0x07FF).text.read (running 0x07FF).pc.toNat = some 0x07FF ∧
      decode 0x07FF#16 = .error (.unassignedOpcode 0) := by decide
theorem witness_StepStops_unused :
    (strict 0x2573).text.read (strict 0x2573).pc.toNat = some 0x2573 ∧ decode 0x2573#16 = .ok (.add .r5 .r3 .r4) ∧
      (strict 0x2573).cfg.strictUnusedFields = true ∧ 0x2573#16 &&& unusedBits (.add .r5 .r3 .r4) ≠ 0#16 := by decide
theorem witness_PlacedWordIsFetched :
    decodeTableWord 16 0x2570 = some (.add .r5 .r3 .r4) ∧ State.reset.cfg.strictUnusedFields = false := by decide

/-- A launch with SP in R7, a program and a data word. -/
def launched : Launch where
  cfg := { Config.standard with spAlias := some .r7 }
  resetPc := 0x0100
  resetSp := 0x8000
  text := [(0x0100, 0xE460)]
  mem := [(0x2000, 0x1234)]

theorem witness_InvariantHoldsAtLaunch :
    launched.text.wf ∧ launched.mem.wf ∧ ∀ x ∈ launched.mem, launched.text.read x.1 = none := by decide
theorem test_launch_sp_alias : (State.launch launched).reg .r7 = 0x8000 ∧ (State.launch launched).sp = 0xFFFF := by decide
theorem reset_inv : RunInv State.reset := by decide
theorem witness_StepKeepsInvariant :
    RunInv (State.launch launched) ∧ ∃ t, step (State.launch launched) = .next t := ⟨by decide, _, rfl⟩
theorem witness_StepKeepsProgramAndParameters : ∃ t, step (running 0x2570) = .next t := ⟨_, rfl⟩
theorem witness_SelfBranchEndsRun : Ended (running 0xF8FF) := by decide

/-! ## Witnesses: whole-machine rules -/

theorem witness_OnlyDataAccessesStop :
    loadAddress State.reset (.add .r0 .r0 .r0) = none ∧ storeAddress State.reset (.add .r0 .r0 .r0) = none ∧
      loadAddress State.reset (.pop false .r0) = some 0x0000 ∧
      storeAddress State.reset (.push false .r0) = some 0xFFFF := by decide
theorem witness_FlagsOutsideColumnKept :
    (∃ t, exec (.and .r0 .r1 .r2) State.reset = .next t) ∧ flagsColumn (.and .r0 .r1 .r2) = .z ∧
      (∃ t, exec (.lsl .r0 .r1 1) State.reset = .next t) ∧ flagsColumn (.lsl .r0 .r1 1) = .none :=
  ⟨⟨_, rfl⟩, rfl, ⟨_, rfl⟩, rfl⟩
theorem witness_FlagsReadOnlyAsListed :
    (readsC (.adc .r0 .r1 .r2) = true → (cvnz 0b0111).c = State.reset.flags.c) ∧
      (readsZ (.bne 0) = true → (cvnz 0b1110).z = State.reset.flags.z) ∧
      (readsNV (.blt 0) = true → (cvnz 0b1001).n = State.reset.flags.n ∧ (cvnz 0b1001).v = State.reset.flags.v) := by
  decide
theorem witness_OnlyDestinationRegisterChanges :
    (∃ t, exec (.add .r0 .r1 .r2) State.reset = .next t) ∧ destination (.add .r0 .r1 .r2) ≠ some .r7 ∧
      ¬ (writesSp (.add .r0 .r1 .r2) = true ∧ State.reset.cfg.spAlias = some .r7) ∧
      ¬ (writesLr (.add .r0 .r1 .r2) = true ∧ State.reset.cfg.lrAlias = some .r7) := ⟨⟨_, rfl⟩, by decide⟩
theorem witness_SpAndLrWrittenOnlyAsListed :
    (∃ t, exec (.add .r0 .r1 .r2) State.reset = .next t) ∧ writesSp (.add .r0 .r1 .r2) = false ∧
      writesLr (.add .r0 .r1 .r2) = false := ⟨⟨_, rfl⟩, by decide⟩
theorem witness_OnlyStoredWordChanges :
    (∃ t, exec (.push false .r3) State.reset = .next t) ∧ storeAddress State.reset (.push false .r3) = some 0xFFFF ∧
      (∃ t, exec .ret State.reset = .next t) ∧ storeAddress State.reset .ret = none := ⟨⟨_, rfl⟩, rfl, ⟨_, rfl⟩, rfl⟩
theorem witness_OthersGoToNextWord :
    isControl (.push false .r3) = false ∧ ∃ t, exec (.push false .r3) { State.reset with pc := 0xFFFF } = .next t :=
  ⟨rfl, _, rfl⟩
theorem witness_DataUnderProgramTextUnobservable :
    ∀ a : Nat, (running 0).text.read a = none → Memory.read [(0x0010, 0xBEEF)] a = (running 0).mem.read a := by
  intro a h
  have h' : ¬ 0x0010 = a := fun e => by subst e; exact absurd h (by decide)
  simp [Memory.read, h', running, start, State.reset]

/-! ## Witnesses: arithmetic, data transfer, calls -/

theorem witness_BranchAfterCompareTellsOrder : ∃ t, exec (.cmp .r1 .r2) State.reset = .next t := ⟨_, rfl⟩
theorem witness_AddThenAdcAddsDoubleWords :
    (Reg.r3 ≠ .r5 ∧ Reg.r4 ≠ .r5 ∧ Reg.r6 ≠ .r5) ∧ ∃ t, exec (.add .r5 .r1 .r2) State.reset = .next t :=
  ⟨by decide, _, rfl⟩
theorem witness_SubThenSucSubtractsDoubleWords :
    (Reg.r3 ≠ .r5 ∧ Reg.r4 ≠ .r5 ∧ Reg.r6 ≠ .r5) ∧ ∃ t, exec (.sub .r5 .r1 .r2) State.reset = .next t :=
  ⟨by decide, _, rfl⟩
theorem witness_ComputedAddressesWrap :
    State.reset.cfg.memImm5Ext = .zero ∧ State.reset.cfg.jmpImm5Ext = .zero ∧
      (signed State.reset).cfg.memImm5Ext = .sign ∧ (signed State.reset).cfg.jmpImm5Ext = .sign := by decide

/-- A platform with program text at 0x0010 and 0x4000, device addresses 0x3FFF to 0x4001, and launch memory 0x2000 to
0x4001: a device address that holds program text is refused as a device address first (R204). -/
def platform : State :=
  { start 0 [(.r1, 0x2000), (.r2, 0x3FFE), (.r3, 0x3FFF), (.r4, 0x4001), (.r5, 0x0010), (.r6, 0x1FFF), (.r7, 0x4002)] with
    cfg := { Config.standard with ioRegions := [⟨0x3FFF, 0x4001⟩], launchMemory := [⟨0x2000, 0x4001⟩] }
    text := [(0x0010, 0xF8FF), (0x4000, 0xF8FF)]
    mem := [(0x2000, 0xBEEF)] }

theorem witness_access_admitted :
    Admitted platform (dataAddress platform .r1 0) ∧ platform.mem.read (dataAddress platform .r1 0).toNat = some 0xBEEF := by
  decide
theorem witness_access_unwritten :
    Admitted platform (dataAddress platform .r2 0) ∧ platform.mem.read (dataAddress platform .r2 0).toNat = none := by
  decide
theorem witness_access_io_first : IsIo platform (dataAddress platform .r3 0) ∧
    ¬ IsText platform (dataAddress platform .r3 0) := by decide
theorem witness_access_io_last : IsIo platform (dataAddress platform .r4 0) := by decide
theorem witness_access_io_before_text : IsIo platform (dataAddress platform .r3 1) ∧
    IsText platform (dataAddress platform .r3 1) := by decide
theorem witness_access_text : ¬ IsIo platform (dataAddress platform .r5 0) ∧
    IsText platform (dataAddress platform .r5 0) := by decide
theorem witness_access_below : ¬ IsIo platform (dataAddress platform .r6 0) ∧
    ¬ IsText platform (dataAddress platform .r6 0) ∧ ¬ IsLaunched platform (dataAddress platform .r6 0) := by decide
theorem witness_access_above : ¬ IsIo platform (dataAddress platform .r7 0) ∧
    ¬ IsText platform (dataAddress platform .r7 0) ∧ ¬ IsLaunched platform (dataAddress platform .r7 0) := by decide
theorem witness_LoadAfterStoreReturnsValue :
    ∃ t, exec (.stw .r2 .r1 1) platform = .next t ∧ dataAddress t .r1 1 = dataAddress platform .r1 1 := ⟨_, rfl, rfl⟩
theorem witness_ReturnResumesAfterCall :
    ∃ t, exec (.bwl 5) State.reset = .next t ∧ (State.reset.setLr 1).getLr = t.getLr := ⟨_, rfl, rfl⟩

/-! ## Witnesses: the stack, on the same platform -/

theorem witness_push_admitted : Admitted { platform with sp := 0x2000 } 0x2000 := by decide
theorem witness_push_io : IsIo { platform with sp := 0x4001 } 0x4001 := by decide
theorem witness_push_text :
    ¬ IsIo { platform with sp := 0x0010 } 0x0010 ∧ IsText { platform with sp := 0x0010 } 0x0010 := by decide
theorem witness_push_not_launched :
    ¬ IsIo { platform with sp := 0xFFFF } 0xFFFF ∧ ¬ IsText { platform with sp := 0xFFFF } 0xFFFF ∧
      ¬ IsLaunched { platform with sp := 0xFFFF } 0xFFFF := by decide
theorem witness_pop_admitted :
    (0x2000#16).toNat = (({ platform with sp := 0x1FFF } : State).getSp.toNat + 1) % 65536 ∧
      Admitted { platform with sp := 0x1FFF } 0x2000 ∧ platform.mem.read 0x2000 = some 0xBEEF := by decide
theorem witness_pop_unwritten :
    (0x2001#16).toNat = (({ platform with sp := 0x2000 } : State).getSp.toNat + 1) % 65536 ∧
      Admitted { platform with sp := 0x2000 } 0x2001 ∧ platform.mem.read 0x2001 = none := by decide
theorem witness_pop_io :
    (0x3FFF#16).toNat = (({ platform with sp := 0x3FFE } : State).getSp.toNat + 1) % 65536 ∧
      IsIo { platform with sp := 0x3FFE } 0x3FFF := by decide
theorem witness_pop_text :
    (0x0010#16).toNat = (({ platform with sp := 0x000F } : State).getSp.toNat + 1) % 65536 ∧
      ¬ IsIo { platform with sp := 0x000F } 0x0010 ∧ IsText { platform with sp := 0x000F } 0x0010 := by decide
theorem witness_pop_wraps_not_launched :
    (0x0000#16).toNat = (({ platform with sp := 0xFFFF } : State).getSp.toNat + 1) % 65536 ∧
      ¬ IsIo { platform with sp := 0xFFFF } 0x0000 ∧ ¬ IsText { platform with sp := 0xFFFF } 0x0000 ∧
      ¬ IsLaunched { platform with sp := 0xFFFF } 0x0000 := by decide

/-- SP is R7 and LR is R6 (R12, R13). -/
def aliased : State := { start 0 [(.r7, 0x1FFF), (.r6, 0x0123)] with
  cfg := { Config.standard with spAlias := some .r7, lrAlias := some .r6 }, mem := [(0x2000, 0xBEEF)] }

theorem test_push_lr_aliased : after aliased 0xE600 (fun t => (t.mem.read 0x1FFF, t.reg .r7, t.sp)) =
    some (some 0x0123, 0x1FFE, 0xFFFF) := by decide
theorem witness_PopIncrements_alias :
    aliased.cfg.spAlias ≠ some .r3 ∧ aliased.cfg.spAlias ≠ aliased.cfg.lrAlias ∧ aliased.cfg.lrAlias ≠ none := by decide
/-- SP_ALIAS is the destination itself (R7): the loaded word stays in it (the model's reading, notes/assumptions/10.md). -/
theorem witness_PopIncrements_into_sp :
    (0x2000#16).toNat = (aliased.getSp.toNat + 1) % 65536 ∧ Admitted aliased 0x2000 ∧
      aliased.mem.read 0x2000 = some 0xBEEF ∧ aliased.cfg.spAlias = some .r7 ∧
      after aliased 0xE0E0 (·.reg .r7) = some 0xBEEF := by decide

/-- SP and LR are both R7, so POP LR loads into SP itself. -/
def sharedAlias : State := { aliased with cfg := { aliased.cfg with lrAlias := some .r7 } }

theorem witness_PopIncrements_lr_is_sp :
    (0x2000#16).toNat = (sharedAlias.getSp.toNat + 1) % 65536 ∧ Admitted sharedAlias 0x2000 ∧
      sharedAlias.mem.read 0x2000 = some 0xBEEF ∧ sharedAlias.cfg.spAlias = sharedAlias.cfg.lrAlias ∧
      after sharedAlias 0xE200 (·.getLr) = some 0xBEEF := by decide
theorem witness_BranchWithLink_alias :
    aliased.cfg.lrAlias ≠ none ∧ aliased.cfg.lrAlias ≠ some .r0 ∧
      after aliased 0xFB01 (fun t => (t.reg .r6, t.lr)) = some (0x0011, 0x0000) := by decide
theorem witness_PopAfterPushReturnsValue :
    (∃ t, exec (.push true .r0) aliased = .next t) ∧ aliased.cfg.spAlias ≠ some .r3 := ⟨⟨_, rfl⟩, by decide⟩

end Sys2Proof.Tests
end

section
/-! The opcode map (R60, R63, R64): which fields of a word select its row, and which fixed bits each row carries. -/

namespace Sys2Proof.OpcodeMap

open Sys2Proof.Claims

/-! ## The selecting fields of a masked word -/

@[simp] theorem opcodeField_and (w m : Word) : opcodeField (w &&& m) = opcodeField w &&& opcodeField m :=
  BitVec.extractLsb'_and

@[simp] theorem condField_and (w m : Word) : condField (w &&& m) = condField w &&& condField m :=
  BitVec.extractLsb'_and

@[simp] theorem uField_and (w m : Word) : uField (w &&& m) = (uField w && uField m) :=
  BitVec.getLsbD_and

/-! ## The row of a word -/

/-- R60, R63, R64: the row is selected by `op` alone, except that 11111 is further selected by `cond` and 11100 by `U`. -/
theorem decode_map_tableRow_congr {w m : Word} (hop : opcodeField w = opcodeField m)
    (hcond : opcodeField m = 0b11111#5 → condField w = condField m)
    (hu : opcodeField m = 0b11100#5 → uField w = uField m) :
    (decode w).map tableRow = (decode m).map tableRow := by
  unfold decode
  rw [hop]
  split
  case h_25 h => -- 11100, PUSH and POP
    simp only [Except.map, decodeStack, hu (BitVec.eq_of_toNat_eq h)]
    cases uField m <;> rfl
  case h_27 h => -- 11111, format D
    simp only [Except.map, decodeControl, hcond (BitVec.eq_of_toNat_eq h)]
    split <;> rfl
  all_goals rfl

/-- A row's `match` word decodes to an instruction of that row. -/
theorem decode_match_tableRow (i : Instr) : (decode (tableRow i).1).map tableRow = .ok (tableRow i) := by
  cases i <;> simp only [tableRow] <;> rfl

/-- Each row's mask covers the fields that select the row. -/
theorem mask_covers_selector (i : Instr) :
    opcodeField (tableRow i).2 = BitVec.allOnes 5 ∧
    (opcodeField (tableRow i).1 = 0b11111#5 → condField (tableRow i).2 = BitVec.allOnes 3) ∧
    (opcodeField (tableRow i).1 = 0b11100#5 → uField (tableRow i).2 = true) := by
  cases i <;> simp only [tableRow] <;> decide

/-- A word that carries a row's fixed bits decodes to an instruction of that row. -/
theorem decode_of_fixedBits {w : Word} {i : Instr} (h : w &&& (tableRow i).2 = (tableRow i).1) :
    (decode w).map tableRow = .ok (tableRow i) := by
  obtain ⟨hop, hcond, hu⟩ := mask_covers_selector i
  rw [← decode_match_tableRow i]
  apply decode_map_tableRow_congr
  · rw [← h, opcodeField_and, hop, BitVec.and_allOnes]
  · exact fun hc => by rw [← h, condField_and, hcond hc, BitVec.and_allOnes]
  · exact fun hc => by rw [← h, uField_and, hu hc, Bool.and_true]

/-! ## The fixed bits of a word -/

theorem and_opcodeMask (w : Word) : w &&& 0xF800#16 = place (opcodeField w) 11 := by
  ext k hk
  interval_cases k <;> simp [place, opcodeField]

theorem and_condMask (w : Word) : w &&& 0xFF00#16 = place (opcodeField w) 11 ||| place (condField w) 8 := by
  ext k hk
  interval_cases k <;> simp [place, opcodeField, condField]

theorem and_uMask (w : Word) : w &&& 0xFC00#16 = place (opcodeField w) 11 ||| place (BitVec.ofBool (uField w)) 10 := by
  ext k hk
  interval_cases k <;> simp [place, opcodeField, uField]

theorem decodeControl_fixedBits {w : Word} (hop : opcodeField w = 0b11111#5) :
    w &&& (tableRow (decodeControl w)).2 = (tableRow (decodeControl w)).1 := by
  unfold decodeControl
  split
  case h_8 =>
    have := (condField w).isLt
    simp only [imp_false] at *
    have hcond : condField w = 0b111#3 := by bv_omega
    simp [tableRow, and_condMask, hop, hcond, place]
  all_goals
    rename_i hcond
    simp [tableRow, and_condMask, hop, (BitVec.toNat_eq_nat.1 hcond).2, place]

theorem decodeStack_fixedBits {w : Word} (hop : opcodeField w = 0b11100#5) :
    w &&& (tableRow (decodeStack w)).2 = (tableRow (decodeStack w)).1 := by
  unfold decodeStack
  cases hu : uField w <;> simp [tableRow, and_uMask, hop, hu, place]

/-- A word that decodes carries the fixed bits of its instruction's row. -/
theorem fixedBits_of_decode {w : Word} {j : Instr} (h : decode w = .ok j) :
    w &&& (tableRow j).2 = (tableRow j).1 := by
  unfold decode at h
  split at h
  case h_25 hop => -- 11100, PUSH and POP
    cases h
    exact decodeStack_fixedBits (BitVec.eq_of_toNat_eq hop)
  case h_27 hop => -- 11111, format D
    cases h
    exact decodeControl_fixedBits (BitVec.eq_of_toNat_eq hop)
  case h_28 => cases h
  all_goals
    rename_i hop
    cases h
    simp [tableRow, and_opcodeMask, (BitVec.toNat_eq_nat.1 hop).2, place]

/-- The decoder names a word's opcode as unassigned exactly where it is one of the five (R61). -/
theorem decode_eq_error_iff (w : Word) : decode w = .error (.unassignedOpcode (opcodeField w)) ↔
    opcodeField w ∈ [0b00000#5, 0b01110#5, 0b01111#5, 0b10111#5, 0b11110#5] := by
  unfold decode
  split
  case h_28 => -- none of the 27 assigned opcodes
    have := (opcodeField w).isLt
    simp only [imp_false] at *
    simp only [List.mem_cons, List.not_mem_nil, or_false, true_iff, BitVec.toNat_eq, BitVec.toNat_ofNat]
    omega
  all_goals
    rename_i hop
    simp [BitVec.toNat_eq, hop]

end Sys2Proof.OpcodeMap

open Sys2Proof Sys2Proof.Claims Sys2Proof.OpcodeMap

/-- Settles O4: the mask of each row covers the fields that select it, and each branch of the decoder fixes its row's bits. -/
theorem opcodeMapIsComplete : Obligations.OpcodeMapIsComplete := by
  refine ⟨fun w i => ⟨fun h => ?_, ?_⟩, decode_eq_error_iff⟩
  · have hrow := decode_of_fixedBits h
    cases hd : decode w with
    | ok j => exact ⟨j, rfl, by simpa [hd, Except.map] using hrow⟩
    | error e => simp [hd, Except.map] at hrow
  · rintro ⟨j, hj, hrow⟩
    exact hrow ▸ fixedBits_of_decode hj
end

section
/-! The adder against exact integers (R100), and the instructions of 40_data_manipulation_arith.md that run it. -/

namespace Sys2Proof.Adder

open Sys2Proof.Machine Sys2Proof.Claims

/-! ## Words as signed integers -/

theorem fits_toInt (x : Word) : Fits x.toInt :=
  ⟨BitVec.le_toInt x, Int.le_sub_one_of_lt BitVec.toInt_lt⟩

theorem toInt_not (x : Word) : (~~~ x).toInt = -x.toInt - 1 := by
  have := x.isLt
  simp only [BitVec.toInt_eq_toNat_cond, BitVec.toNat_not]
  omega

/-- The sign bit of a result is the exact value's, unless that value overflows; then it is the other one. -/
theorem msb_ofInt {d : Int} (hd : -65536 ≤ d ∧ d ≤ 65535) : (BitVec.ofInt 16 d).msb = decide (d < 0 ↔ Fits d) := by
  simp only [BitVec.msb_eq_toInt, BitVec.toInt_ofInt, Int.bmod_def, Fits, decide_eq_decide]
  omega

/-! ## R100: the sum -/

theorem adderResult_eq_ofInt (a b : Word) (cin : Bool) :
    adderResult a b cin = BitVec.ofInt 16 (a.toInt + b.toInt + bit cin) := by
  simp [adderResult, sum17, BitVec.ofInt_add, BitVec.ofNat_add]

theorem adderFlags_c_iff (a b : Word) (cin : Bool) :
    (adderFlags a b cin).c = true ↔ 65536 ≤ a.toNat + b.toNat + cin.toNat := by
  have := cin.toNat_le
  refine decide_eq_true_iff.trans ?_
  unfold sum17
  omega

/-- The sum overflows exactly where the operands' signs agree and the result's sign differs from them. -/
theorem adderFlags_v_iff (a b : Word) (cin : Bool) :
    (adderFlags a b cin).v = true ↔ ¬ Fits (a.toInt + b.toInt + bit cin) := by
  have hcin := cin.toNat_le
  have ha := fits_toInt a
  have hb := fits_toInt b
  simp only [adderFlags, adderResult_eq_ofInt, bit]
  rw [msb_ofInt (by omega)]
  simp only [BitVec.msb_eq_toInt, Bool.and_eq_true, beq_iff_eq, bne_iff_ne, ne_eq, decide_eq_decide, Fits]
  omega

/-- R100 with its consequence (i), for the additive forms. -/
theorem sumFlags_adder (a b : Word) (cin : Bool) : SumFlags (adderFlags a b cin) (adderResult a b cin) a b cin :=
  ⟨adderResult_eq_ofInt a b cin, adderFlags_c_iff a b cin, adderFlags_v_iff a b cin, rfl, decide_eq_true_iff⟩

/-! ## R100: the difference, as the sum with the complement -/

/-- `a + ~b + c` is `a - b - NOT c`, and its carry is the absence of a borrow. -/
theorem diffFlags_of_sumFlags {f : Flags} {res a b : Word} {c : Bool} (h : SumFlags f res a (~~~ b) c) :
    DiffFlags f res a b c := by
  obtain ⟨hres, hc, hv, hnz⟩ := h
  have hsum : a.toInt + (~~~ b).toInt + bit c = a.toInt - b.toInt - bit (!c) := by
    rw [toInt_not]
    cases c <;> simp only [bit, Bool.toNat_true, Bool.toNat_false, Bool.not_true, Bool.not_false] <;> omega
  have hcarry : 65536 ≤ a.toNat + (~~~ b).toNat + c.toNat ↔ b.toNat + (!c).toNat ≤ a.toNat := by
    have := b.isLt
    rw [BitVec.toNat_not]
    cases c <;> simp <;> omega
  exact ⟨hsum ▸ hres, hc.trans hcarry, hsum ▸ hv, hnz⟩

/-- R100 with its consequences (i) and (ii), for the subtractive forms. -/
theorem diffFlags_adder (a b : Word) (c : Bool) :
    DiffFlags (adderFlags a (~~~ b) c) (adderResult a (~~~ b) c) a b c :=
  diffFlags_of_sumFlags (sumFlags_adder a (~~~ b) c)

/-! ## What the flags of a difference without borrow tell -/

section
variable {f : Flags} {res a b : Word}

theorem c_iff_of_diffFlags (h : DiffFlags f res a b true) : f.c = true ↔ b.toNat ≤ a.toNat := by
  obtain ⟨-, hc, -, -⟩ := h
  exact hc

theorem v_iff_of_diffFlags (h : DiffFlags f res a b true) : f.v = true ↔ ¬ Fits (a.toInt - b.toInt) := by
  obtain ⟨-, -, hv, -⟩ := h
  simpa using hv

theorem z_iff_of_diffFlags (h : DiffFlags f res a b true) : f.z = true ↔ a = b := by
  obtain ⟨hres, -, -, -, hz⟩ := h
  have hsub : res = a - b := by
    simpa [sub_eq_add_neg, BitVec.ofInt_add, BitVec.ofInt_neg] using hres
  rw [hz, hsub, BitVec.sub_eq_iff_eq_add, BitVec.zero_add]

/-- R100, consequence (iii): n is the difference's sign, corrected by v. -/
theorem n_ne_v_iff_of_diffFlags (h : DiffFlags f res a b true) : f.n ≠ f.v ↔ a.toInt < b.toInt := by
  have hv := v_iff_of_diffFlags h
  obtain ⟨hres, -, -, hn, -⟩ := h
  have ha := fits_toInt a
  have hb := fits_toInt b
  have hn' : f.n = true ↔ (a.toInt - b.toInt < 0 ↔ Fits (a.toInt - b.toInt)) := by
    rw [hn, hres, show a.toInt - b.toInt - bit (!true) = a.toInt - b.toInt from Int.sub_zero _, msb_ofInt (by omega),
      decide_eq_true_iff]
  rw [ne_eq, Bool.eq_iff_iff, hn', hv]
  omega

end

/-! ## The instructions that write the result to Rd -/

theorem onlyRegs_addInto (s : State) (rd : Reg) (a b : Word) (cin : Bool) : OnlyRegs [rd] s (addInto s rd a b cin) :=
  ⟨fun _ hr => addInto_reg_ne s rd a b cin (List.ne_of_not_mem_cons hr), rfl, rfl, fun _ => rfl, rfl, rfl⟩

theorem addedInto_addInto (s : State) (rd : Reg) (a b : Word) (cin : Bool) :
    AddedInto s (addInto s rd a b cin) rd a b cin := by
  refine ⟨?_, addInto_pc s rd a b cin, onlyRegs_addInto s rd a b cin⟩
  rw [addInto_flags, addInto_reg]
  exact sumFlags_adder a b cin

theorem subtractedInto_addInto (s : State) (rd : Reg) (a b : Word) (c : Bool) :
    SubtractedInto s (addInto s rd a (~~~ b) c) rd a b c := by
  obtain ⟨hsum, hpc, hframe⟩ := addedInto_addInto s rd a (~~~ b) c
  exact ⟨diffFlags_of_sumFlags hsum, hpc, hframe⟩

theorem negation_overflows_iff (b : Word) : ¬ Fits ((0x0000#16).toInt - b.toInt) ↔ b = 0x8000#16 := by
  have hb := fits_toInt b
  rw [← BitVec.toInt_inj]
  simp only [BitVec.toInt_zero, show (0x8000#16).toInt = -32768 from rfl]
  omega

end Sys2Proof.Adder

open Sys2Proof Sys2Proof.Machine Sys2Proof.Claims Sys2Proof.Adder

/-- Settles O24: the four instructions run the adder on their operands, and the adder is exact (R100). -/
theorem additionsWriteSumAndFlags : Obligations.AdditionsWriteSumAndFlags := by
  refine ⟨⟨?_, ?_, ?_, ?_⟩, fun s rd ra rb imm5 => ⟨?_, ?_, ?_, ?_⟩⟩
  case refine_1 | refine_2 | refine_3 | refine_4 => -- the opcode selects the decoder's arm
    intro w hop
    simp only [decode, opcodeField, hop]
    rfl
  · exact ⟨_, rfl, addedInto_addInto s rd (s.reg ra) (s.reg rb) false⟩
  · exact ⟨_, rfl, addedInto_addInto s rd (s.reg ra) (aluImm5 imm5) false⟩
  · exact ⟨_, rfl, addedInto_addInto s rd (s.reg ra) (s.reg rb) s.flags.c⟩
  · exact ⟨_, rfl, addedInto_addInto s rd (s.reg ra) (aluImm5 imm5) s.flags.c⟩

/-- Settles O25: the four instructions run the adder on the complement of their second operand, which is the
difference (R100). -/
theorem subtractionsWriteDifferenceAndFlags : Obligations.SubtractionsWriteDifferenceAndFlags := by
  refine ⟨⟨?_, ?_, ?_, ?_⟩, fun s rd ra rb imm5 => ⟨?_, ?_, ?_, ?_⟩⟩
  case refine_1 | refine_2 | refine_3 | refine_4 => -- the opcode selects the decoder's arm
    intro w hop
    simp only [decode, opcodeField, hop]
    rfl
  · exact ⟨_, rfl, subtractedInto_addInto s rd (s.reg ra) (s.reg rb) true⟩
  · exact ⟨_, rfl, subtractedInto_addInto s rd (s.reg ra) (aluImm5 imm5) true⟩
  · exact ⟨_, rfl, subtractedInto_addInto s rd (s.reg ra) (s.reg rb) s.flags.c⟩
  · exact ⟨_, rfl, subtractedInto_addInto s rd (s.reg ra) (aluImm5 imm5) s.flags.c⟩

/-- Settles O26: `0 - Rd` overflows only for the least signed value, and borrows for every value but 0. -/
theorem negateWritesDifferenceFromZero : Obligations.NegateWritesDifferenceFromZero := by
  refine ⟨fun w hop => ?_, fun s rd => ⟨addInto s rd 0x0000 (~~~ s.reg rd) true, rfl, ?_⟩⟩
  · simp only [decode, opcodeField, hop]
    rfl
  · have hsub := subtractedInto_addInto s rd 0x0000 (s.reg rd) true
    have ⟨hdiff, _, _⟩ := hsub
    exact ⟨hsub, (v_iff_of_diffFlags hdiff).trans (negation_overflows_iff _),
      (c_iff_of_diffFlags hdiff).trans BitVec.le_zero_iff⟩

/-- Settles O27: CMP keeps the flags of the difference without its result, and the three order facts are read off
them. -/
theorem compareWritesFlagsOnly : Obligations.CompareWritesFlagsOnly := by
  refine ⟨fun w hop => ?_, fun s ra rb =>
    ⟨(s.setFlags (adderFlags (s.reg ra) (~~~ s.reg rb) true)).advance, rfl, ?_⟩⟩
  · simp only [decode, opcodeField, hop]
    rfl
  · have hdiff := diffFlags_adder (s.reg ra) (s.reg rb) true
    have hframe : OnlyRegs [] s (s.setFlags (adderFlags (s.reg ra) (~~~ s.reg rb) true)).advance :=
      ⟨fun _ _ => rfl, rfl, rfl, fun _ => rfl, rfl, rfl⟩
    exact ⟨⟨_, hdiff⟩, rfl, hframe, z_iff_of_diffFlags hdiff, n_ne_v_iff_of_diffFlags hdiff, c_iff_of_diffFlags hdiff⟩

end

section
/-! The logic instructions and the shifts of 41_data_manipulation_logic_shift.md: what each of the two shared endings
leaves, and the shifts as integer arithmetic. -/

namespace Sys2Proof.LogicShift

open Sys2Proof.Machine Sys2Proof.Claims

/-! ## The two endings: z alone written (R130), no flag written (R137) -/

theorem onlyRegs_logicInto (s : State) (rd : Reg) (res : Word) : OnlyRegs [rd] s (logicInto s rd res) :=
  ⟨fun _ hr => logicInto_reg_ne s rd res (List.ne_of_not_mem_cons hr), rfl, rfl, fun _ => rfl, rfl, rfl⟩

/-- A logic instruction's ending is bitwise exactly as far as its result is. -/
theorem bitwiseInto_logicInto (s : State) (rd : Reg) {f : Bool → Bool → Bool} {a b res : Word}
    (hbits : ∀ k, k < 16 → res.getLsbD k = f (a.getLsbD k) (b.getLsbD k)) :
    BitwiseInto s (logicInto s rd res) rd f a b := by
  refine ⟨?_, ?_, logicInto_pc s rd res, onlyRegs_logicInto s rd res⟩
  · rwa [logicInto_reg]
  · rw [logicInto_reg, logicInto_flags]

theorem onlyRegs_moveInto (s : State) (rd : Reg) (res : Word) : OnlyRegs [rd] s (moveInto s rd res) :=
  ⟨fun _ hr => moveInto_reg_ne s rd res (List.ne_of_not_mem_cons hr), rfl, rfl, fun _ => rfl, rfl, rfl⟩

theorem movedInto_moveInto (s : State) (rd : Reg) (res : Word) : MovedInto s (moveInto s rd res) rd :=
  ⟨moveInto_flags s rd res, moveInto_pc s rd res, onlyRegs_moveInto s rd res⟩

/-! ## The arithmetic shift right -/

theorem toInt_sshiftRight_eq_fdiv (x : Word) (n : Nat) : (x.sshiftRight n).toInt = x.toInt.fdiv (2 ^ n) := by
  have hpow : (0 : Int) ≤ 2 ^ n := pow_nonneg (by decide) n
  rw [BitVec.toInt_sshiftRight, Int.shiftRight_eq_div_pow, Int.fdiv_eq_ediv_of_nonneg _ hpow]
  norm_cast

/-- R140: each bit comes from `n` places up, and bit 15 is copied where there is none. -/
theorem getLsbD_sshiftRight_eq_min (x : Word) (n : Nat) {k : Nat} (hk : k < 16) :
    (x.sshiftRight n).getLsbD k = x.getLsbD (min (k + n) 15) := by
  rw [BitVec.getLsbD_sshiftRight, decide_eq_false (Nat.not_le.2 hk), Bool.not_false, Bool.true_and]
  split
  case isTrue h => rw [Nat.min_eq_left (by omega), Nat.add_comm k n]
  case isFalse h => rw [Nat.min_eq_right (by omega), BitVec.msb_eq_getLsbD_last]

end Sys2Proof.LogicShift

open Sys2Proof Sys2Proof.Machine Sys2Proof.Claims Sys2Proof.LogicShift

/-- Settles O31: each instruction ends by writing z from a result that is its operation bit by bit. -/
theorem logicIsBitwiseAndWritesZ : Obligations.LogicIsBitwiseAndWritesZ := by
  refine ⟨⟨?_, ?_, ?_, ?_, ?_, ?_⟩, fun s rd ra rb => ⟨?_, ?_, ?_, ?_, ?_, ?_⟩⟩
  case refine_1 | refine_2 | refine_3 | refine_4 | refine_5 | refine_6 => -- the opcode selects the decoder's arm
    intro w hop
    simp only [decode, opcodeField, hop]
    rfl
  · exact ⟨_, rfl, bitwiseInto_logicInto s rd fun _ _ => BitVec.getLsbD_and⟩
  · exact ⟨_, rfl, bitwiseInto_logicInto s rd fun _ _ => BitVec.getLsbD_or⟩
  · exact ⟨_, rfl, bitwiseInto_logicInto s rd fun _ _ => BitVec.getLsbD_xor⟩
  · exact ⟨_, rfl, bitwiseInto_logicInto s rd fun k hk => by simp [hk]⟩
  · exact ⟨_, rfl, bitwiseInto_logicInto s rd fun k hk => by simp [hk]⟩
  · exact ⟨_, rfl, bitwiseInto_logicInto s rd fun k hk => by simp [hk]⟩

/-- Settles O32: each shift ends by writing no flag, and its result is the product or quotient by the power of two. -/
theorem shiftsMultiplyAndDivide : Obligations.ShiftsMultiplyAndDivide := by
  refine ⟨⟨?_, ?_, ?_⟩, fun s rd ra imm4 => ⟨⟨_, rfl, ?_, movedInto_moveInto s rd _⟩,
    ⟨_, rfl, ?_, movedInto_moveInto s rd _⟩, ⟨_, rfl, ?_, fun k hk => ?_, movedInto_moveInto s rd _⟩⟩⟩
  case refine_1 | refine_2 | refine_3 => -- the opcode selects the decoder's arm
    intro w hop
    simp only [decode, opcodeField, hop]
    rfl
  · rw [moveInto_reg, BitVec.toNat_shiftLeft, Nat.shiftLeft_eq]
  · rw [moveInto_reg, BitVec.toNat_ushiftRight, Nat.shiftRight_eq_div_pow]
  · rw [moveInto_reg, toInt_sshiftRight_eq_fdiv]
  · rw [moveInto_reg, getLsbD_sshiftRight_eq_min _ _ hk]

end

section
/-! The byte-immediate additions and subtractions of 42_byte_immediate.md: the adder's forms with Rd itself and the
zero-extended byte as operands. -/

open Sys2Proof Sys2Proof.Machine Sys2Proof.Claims Sys2Proof.Adder

/-- Settles O34: both instructions run the adder on Rd and the zero-extended byte, SUBIB on the byte's complement
(R69, R100). -/
theorem byteImmediatesAddAndSubtract : Obligations.ByteImmediatesAddAndSubtract := by
  refine ⟨⟨?_, ?_⟩, fun s rd imm8 => ⟨?_, ?_⟩⟩
  case refine_1 | refine_2 => -- the opcode selects the decoder's arm
    intro w hop
    simp only [decode, opcodeField, hop]
    rfl
  · exact ⟨_, rfl, addedInto_addInto s rd (s.reg rd) (aluImm8 imm8) false⟩
  · exact ⟨_, rfl, subtractedInto_addInto s rd (s.reg rd) (aluImm8 imm8) true⟩

end

section
/-! STW of 43_data_transfer.md: an instruction whose access is a store completes or stops as the store does. -/

namespace Sys2Proof.DataTransfer

open Sys2Proof.Machine Sys2Proof.Claims

theorem storesAt_of_mem_write {s t : State} {a v : Word} (h : t.mem = s.mem.write a.toNat v) : StoresAt s t a v := by
  rw [StoresAt, h]
  exact ⟨Memory.read_write_same _ _ _, fun _ hb => Memory.read_write_ne _ _ hb⟩

theorem storeWord_of_refusal {s : State} {a : Word} {r : Refusal}
    (h : accessRefusal s .storeToProgramText a = some r) (v : Word) : storeWord s a v = .refused r := by
  simp only [storeWord, h]

/-- An admitted store is performed before the rest of its instruction. -/
theorem andThen_storeWord_of_admitted {β : Type} {s : State} {a : Word} (h : Admitted s a) (v : Word) (k : State → β) :
    andThen (storeWord s a v) k = .next (k { s with mem := s.mem.write a.toNat v }) :=
  andThen_next.2 ⟨_, storeWord_next.2 ⟨h, rfl⟩, rfl⟩

/-- A store stops its instruction as the checks of R204 do, whatever is stored and whatever would follow. -/
theorem refusedInOrder_andThen_storeWord (s : State) (a v : Word) (k : State → State) :
    RefusedInOrder s a (.storeToProgramText a) (andThen (storeWord s a v) k) := by
  have ⟨hio, htext, hlaunched⟩ := accessRefusal_some s .storeToProgramText a
  refine ⟨fun h => ?_, fun h h' => ?_, fun h h' h'' => ?_⟩
  · rw [storeWord_of_refusal (hio h), andThen_of_refused]
  · rw [storeWord_of_refusal (htext h h'), andThen_of_refused]
  · rw [storeWord_of_refusal (hlaunched h h' h''), andThen_of_refused]

end Sys2Proof.DataTransfer

open Sys2Proof Sys2Proof.Machine Sys2Proof.Claims Sys2Proof.DataTransfer

/-- Settles O39: STW is a store of Rd at its address, then the next word; an admitted store is performed, and any other is
refused by the first check that fails (R204). -/
theorem storeWritesWordAtAddress : Obligations.StoreWritesWordAtAddress := by
  refine ⟨fun w hop => ?_, ?_⟩
  · simp only [decode, opcodeField, hop]
    rfl
  · rintro s rd ra imm5 _ rfl
    refine ⟨fun hadm => ?_, refusedInOrder_andThen_storeWord s _ (s.reg rd) State.advance⟩
    exact ⟨_, andThen_storeWord_of_admitted hadm (s.reg rd) State.advance, storesAt_of_mem_write rfl, rfl⟩

end

section
/-! The five plain branches of 44_control_transfer.md, section 2: the word's upper byte selects the instruction, and a
taken branch goes to an integer distance from the next instruction. -/

namespace Sys2Proof.Branches

open Sys2Proof.Machine Sys2Proof.Claims

/-! ## The selecting fields, in the upper byte of the word -/

theorem opcodeField_eq_upperByte (w : Word) : opcodeField w = (w.extractLsb' 8 8).extractLsb' 3 5 := by
  ext k hk
  simp [opcodeField, show 3 + k < 8 by omega, ← Nat.add_assoc]

theorem condField_eq_upperByte (w : Word) : condField w = (w.extractLsb' 8 8).extractLsb' 0 3 := by
  ext k hk
  simp [condField, show k < 8 by omega]

/-! ## Where a branch goes -/

/-- The target as an integer modulo 2^16: imm8 signed words beyond the next instruction (R70, R170). -/
theorem branchTarget_toNat (s : State) (imm8 : BitVec 8) :
    ((branchTarget s imm8).toNat : Int) = ((s.pc.toNat : Int) + 1 + imm8.toInt) % 65536 := by
  have htarget : branchTarget s imm8 = BitVec.ofInt 16 ((s.pc.toNat : Int) + 1 + imm8.toInt) := by
    rw [BitVec.ofInt_add, BitVec.ofInt_add, BitVec.ofInt_natCast, BitVec.ofNat_toNat, BitVec.setWidth_eq]
    rfl
  rw [htarget, BitVec.toNat_ofInt]
  omega

/-- The two ends of a branch (R172 to R176), for a condition `p` that the model decides as `taken`. -/
theorem movesPc_branchIf {taken : Bool} {p : Prop} [Decidable p] (hp : taken = true ↔ p) (imm8 : BitVec 8) (s : State) :
    MovesPc s (branchIf taken imm8 s) (if p then imm8.toInt else 0) := by
  cases taken with
  | true =>
    rw [if_pos (hp.1 rfl)]
    exact ⟨rfl, branchTarget_toNat s imm8⟩
  | false =>
    rw [if_neg fun h => Bool.false_ne_true (hp.2 h)]
    refine ⟨rfl, ?_⟩
    rw [branchIf, if_neg Bool.false_ne_true, State.advance_pc, BitVec.toNat_add, add_zero]
    rfl

end Sys2Proof.Branches

open Sys2Proof Sys2Proof.Machine Sys2Proof.Claims Sys2Proof.Branches

/-- Settles O41: the upper byte selects each branch, and each is `branchIf` with its row's condition. -/
theorem branchesMovePc : Obligations.BranchesMovePc := by
  refine ⟨⟨?_, ?_, ?_, ?_, ?_⟩, fun s imm8 => ⟨?_, ?_, ?_, ?_, ?_⟩⟩
  case refine_1 | refine_2 | refine_3 | refine_4 | refine_5 => -- the upper byte selects the decoder's arm
    intro w hhi
    simp only [decode, decodeControl, opcodeField_eq_upperByte, condField_eq_upperByte, hhi]
    rfl
  · exact ⟨_, rfl, movesPc_branchIf (p := True) (iff_of_true rfl trivial) imm8 s⟩
  · exact ⟨_, rfl, movesPc_branchIf (Bool.not_eq_true' s.flags.z).to_iff imm8 s⟩
  · exact ⟨_, rfl, movesPc_branchIf Iff.rfl imm8 s⟩
  · exact ⟨_, rfl, movesPc_branchIf bne_iff_ne imm8 s⟩
  · exact ⟨_, rfl, movesPc_branchIf beq_iff_eq imm8 s⟩

end

section
/-! The encoding round trip (spec/30_encoding.md R52 to R58, R62, R81): a format's word holds each field in its place,
and a word with its unused bits cleared is its format's word of its fields. -/

namespace Sys2Proof.RoundTrip

/-! ## What a format's word holds -/

theorem extract_place_same {n : Nat} (x : BitVec n) (lo : Nat) (h : lo + n ≤ 16) :
    (place x lo).extractLsb' lo n = x := by
  ext k hk
  simp [place, show lo + k < 16 by omega, BitVec.getLsbD_eq_getElem hk]

/-- A field leaves the bits outside its place 0. -/
theorem extract_place_disjoint {k : Nat} (x : BitVec k) {lo lo' n : Nat} (h : lo' + n ≤ lo ∨ lo + k ≤ lo') :
    (place x lo).extractLsb' lo' n = 0#n := by
  ext j hj
  simp only [place, BitVec.getElem_extractLsb', BitVec.getLsbD_shiftLeft, BitVec.getLsbD_setWidth, BitVec.getElem_zero]
  rcases h with h | h
  · simp [show lo' + j < lo by omega]
  · simp [BitVec.getLsbD_of_ge x (lo' + j - lo) (by omega)]

section
variable (op imm5 : BitVec 5) (rd ra rb cond : BitVec 3) (imm4 : BitVec 4) (imm8 : BitVec 8) (u l : Bool)

theorem fields_formatAReg :
    opcodeField (formatAReg op rd ra rb) = op ∧ rdField (formatAReg op rd ra rb) = .ofBits rd ∧
    raField (formatAReg op rd ra rb) = .ofBits ra ∧ rbField (formatAReg op rd ra rb) = .ofBits rb := by
  simp [formatAReg, opcodeField, rdField, raField, rbField, BitVec.extractLsb'_or, extract_place_same,
    extract_place_disjoint]

theorem fields_formatAImm :
    opcodeField (formatAImm op rd ra imm5) = op ∧ rdField (formatAImm op rd ra imm5) = .ofBits rd ∧
    raField (formatAImm op rd ra imm5) = .ofBits ra ∧ imm5Field (formatAImm op rd ra imm5) = imm5 := by
  simp [formatAImm, opcodeField, rdField, raField, imm5Field, BitVec.extractLsb'_or, extract_place_same,
    extract_place_disjoint]

theorem imm4Field_formatAImm : imm4Field (formatAImm op rd ra (imm4.setWidth 5)) = imm4 := by
  ext k hk
  simp [formatAImm, place, imm4Field, hk, show k < 5 by omega, show k < 8 by omega, show k < 11 by omega,
    show k < 16 by omega]

theorem fields_formatB :
    opcodeField (formatB op rd imm8) = op ∧ rdField (formatB op rd imm8) = .ofBits rd ∧
    imm8Field (formatB op rd imm8) = imm8 := by
  simp [formatB, opcodeField, rdField, imm8Field, BitVec.extractLsb'_or, extract_place_same, extract_place_disjoint]

theorem fields_formatDOthers :
    opcodeField (formatDOthers cond imm8) = 0b11111#5 ∧ condField (formatDOthers cond imm8) = cond ∧
    imm8Field (formatDOthers cond imm8) = imm8 := by
  simp [formatDOthers, opcodeField, condField, imm8Field, BitVec.extractLsb'_or, extract_place_same,
    extract_place_disjoint]

theorem fields_formatDJump :
    opcodeField (formatDJump cond ra imm5) = 0b11111#5 ∧ condField (formatDJump cond ra imm5) = cond ∧
    raField (formatDJump cond ra imm5) = .ofBits ra ∧ imm5Field (formatDJump cond ra imm5) = imm5 := by
  simp [formatDJump, opcodeField, condField, raField, imm5Field, BitVec.extractLsb'_or, extract_place_same,
    extract_place_disjoint]

theorem fields_formatE :
    opcodeField (formatE u l ra) = 0b11100#5 ∧ uField (formatE u l ra) = u ∧ lField (formatE u l ra) = l ∧
    raField (formatE u l ra) = .ofBits ra := by
  revert u l ra
  decide

end

/-- The decoder reads every field back out of the canonical word. -/
theorem decode_encode {i : Instr} (h : i.wf = true) : decode (encode i) = .ok i := by
  cases i
  case add | adc | neg | sub | suc | cmp | and | or | xor | not | nand | nor =>
    simp [encode, decode, fields_formatAReg]
  case addi | adci | subi | suci | ldw | stw =>
    simp [encode, decode, fields_formatAImm]
  case lsl | lsr | asr =>
    simp [encode, decode, fields_formatAImm, imm4Field_formatAImm]
  case addib | subib | lui | lli =>
    simp [encode, decode, fields_formatB]
  case br | bne | be | blt | bge | bwl | ret =>
    simp [encode, decode, decodeControl, fields_formatDOthers]
  case jmp =>
    simp [encode, decode, decodeControl, fields_formatDJump]
  case push link ra | pop link ra => -- with L = 1 the operand is R0, which is what the decoder answers
    cases link <;> simp_all [encode, decode, decodeStack, stackRa, fields_formatE, Instr.wf, stackOperandWf]

/-! ## The format's word of a word's own fields -/

/-- Reading a field and placing it again keeps the field's bits and clears the others. -/
theorem place_extract (w : Word) (lo n : Nat) : place (w.extractLsb' lo n) lo = w &&& place (BitVec.allOnes n) lo := by
  ext k hk
  by_cases hlo : k < lo
  · simp [place, hlo]
  · by_cases hn : k - lo < n <;> simp [place, hlo, hn, show lo + (k - lo) = k by omega, hk]

theorem place_imm4_setWidth (imm4 : BitVec 4) : place (imm4.setWidth 5) 0 = place imm4 0 := by
  revert imm4
  decide

theorem ofBool_getLsbD (w : Word) (k : Nat) : BitVec.ofBool (w.getLsbD k) = w.extractLsb' k 1 := by
  ext j hj
  obtain rfl : j = 0 := by omega
  simp

@[simp] theorem place_zero (n lo : Nat) : place (0 : BitVec n) lo = 0#16 := by
  simp [place]

/-- Format D's constant is its opcode. -/
theorem controlOpcode_eq_place : 0xF800#16 = place 0b11111#5 11 := rfl

/-- Format E's constant is its opcode. -/
theorem stackOpcode_eq_place : 0xE000#16 = place 0b11100#5 11 := rfl

section
variable {w : Word} {op : BitVec 5} (hop : opcodeField w = op)
include hop

theorem formatAReg_fields :
    formatAReg op (rdField w).bits (raField w).bits (rbField w).bits = w &&& ~~~0x0003#16 := by
  simp only [← hop, formatAReg, opcodeField, rdField, raField, rbField, Reg.bits_ofBits, place_extract,
    ← BitVec.and_or_distrib_left]
  rfl

/-- NOT's words: the Rb field is unused. -/
theorem formatAReg_rd_ra : formatAReg op (rdField w).bits (raField w).bits 0 = w &&& ~~~0x001F#16 := by
  simp only [← hop, formatAReg, opcodeField, rdField, raField, Reg.bits_ofBits, place_extract,
    ← BitVec.and_or_distrib_left, place_zero, BitVec.or_zero]
  rfl

/-- NEG's words: the Ra and Rb fields are unused. -/
theorem formatAReg_rd : formatAReg op (rdField w).bits 0 0 = w &&& ~~~0x00FF#16 := by
  simp only [← hop, formatAReg, opcodeField, rdField, Reg.bits_ofBits, place_extract,
    ← BitVec.and_or_distrib_left, place_zero, BitVec.or_zero]
  rfl

/-- CMP's words: the Rd field is unused. -/
theorem formatAReg_ra_rb : formatAReg op 0 (raField w).bits (rbField w).bits = w &&& ~~~0x0703#16 := by
  simp only [← hop, formatAReg, opcodeField, raField, rbField, Reg.bits_ofBits, place_extract,
    ← BitVec.and_or_distrib_left, place_zero, BitVec.or_zero]
  rfl

theorem formatAImm_imm5 : formatAImm op (rdField w).bits (raField w).bits (imm5Field w) = w &&& ~~~0#16 := by
  simp only [← hop, formatAImm, opcodeField, rdField, raField, imm5Field, Reg.bits_ofBits, place_extract,
    ← BitVec.and_or_distrib_left]
  rfl

/-- The shifts' words: bit 4 is unused. -/
theorem formatAImm_imm4 :
    formatAImm op (rdField w).bits (raField w).bits ((imm4Field w).setWidth 5) = w &&& ~~~0x0010#16 := by
  simp only [← hop, formatAImm, opcodeField, rdField, raField, imm4Field, Reg.bits_ofBits, place_imm4_setWidth,
    place_extract, ← BitVec.and_or_distrib_left]
  rfl

theorem formatB_fields : formatB op (rdField w).bits (imm8Field w) = w &&& ~~~0#16 := by
  simp only [← hop, formatB, opcodeField, rdField, imm8Field, Reg.bits_ofBits, place_extract,
    ← BitVec.and_or_distrib_left]
  rfl

end

section
variable {w : Word} {cond : BitVec 3} (hop : opcodeField w = 0b11111#5) (hcond : condField w = cond)
include hop hcond

theorem formatDOthers_imm8 : formatDOthers cond (imm8Field w) = w &&& ~~~0#16 := by
  simp only [formatDOthers, controlOpcode_eq_place, ← hop, ← hcond, opcodeField, condField, imm8Field,
    place_extract, ← BitVec.and_or_distrib_left]
  rfl

/-- RET's words: the imm8 field is unused. -/
theorem formatDOthers_unused : formatDOthers cond 0 = w &&& ~~~0x00FF#16 := by
  simp only [formatDOthers, controlOpcode_eq_place, ← hop, ← hcond, opcodeField, condField, place_extract,
    ← BitVec.and_or_distrib_left, place_zero, BitVec.or_zero]
  rfl

theorem formatDJump_fields : formatDJump cond (raField w).bits (imm5Field w) = w &&& ~~~0#16 := by
  simp only [formatDJump, controlOpcode_eq_place, ← hop, ← hcond, opcodeField, condField, raField, imm5Field,
    Reg.bits_ofBits, place_extract, ← BitVec.and_or_distrib_left]
  rfl

end

/-- PUSH's and POP's words: with L = 1 the Ra field is unused too. -/
theorem formatE_fields {w : Word} {u : Bool} (hop : opcodeField w = 0b11100#5) (hu : uField w = u) :
    formatE u (lField w) (stackRa w).bits = w &&& ~~~stackUnusedBits (lField w) := by
  have hfixed : 0xE000#16 ||| place (BitVec.ofBool u) 10 ||| place (BitVec.ofBool (lField w)) 9 =
      w &&& (place (BitVec.allOnes 5) 11 ||| place (BitVec.allOnes 1) 10 ||| place (BitVec.allOnes 1) 9) := by
    simp only [stackOpcode_eq_place, ← hop, ← hu, opcodeField, uField, lField, ofBool_getLsbD, place_extract,
      ← BitVec.and_or_distrib_left]
  rw [formatE, hfixed, stackRa]
  cases lField w with
  | false =>
    simp only [Bool.false_eq_true, if_false, raField, Reg.bits_ofBits, place_extract, ← BitVec.and_or_distrib_left]
    rfl
  | true =>
    simp only [if_true, Reg.bits, place_zero, BitVec.or_zero]
    rfl

/-- R63: the cond field and the fields it selects make up the word. -/
theorem encode_decodeControl {w : Word} (hop : opcodeField w = 0b11111#5) :
    (decodeControl w).wf = true ∧ encode (decodeControl w) = w &&& ~~~unusedBits (decodeControl w) := by
  unfold decodeControl
  split
  case h_2 h => exact ⟨rfl, formatDJump_fields hop (BitVec.eq_of_toNat_eq h)⟩
  case h_3 h => exact ⟨rfl, formatDOthers_unused hop (BitVec.eq_of_toNat_eq h)⟩
  case h_8 =>
    have := (condField w).isLt
    simp only [imp_false] at *
    exact ⟨rfl, formatDOthers_imm8 hop (show condField w = 0b111#3 by bv_omega)⟩
  all_goals
    rename_i hcond
    exact ⟨rfl, formatDOthers_imm8 hop (BitVec.eq_of_toNat_eq hcond)⟩

/-- R64: U selects the instruction, whose other fields make up the word. -/
theorem encode_decodeStack {w : Word} (hop : opcodeField w = 0b11100#5) :
    (decodeStack w).wf = true ∧ encode (decodeStack w) = w &&& ~~~unusedBits (decodeStack w) := by
  have hwf : stackOperandWf (lField w) (stackRa w) = true := by
    unfold stackOperandWf stackRa
    cases lField w <;> rfl
  unfold decodeStack
  cases hu : uField w <;> exact ⟨hwf, formatE_fields hop hu⟩

theorem encode_of_decode {w : Word} {i : Instr} (h : decode w = .ok i) :
    i.wf = true ∧ encode i = w &&& ~~~unusedBits i := by
  unfold decode at h
  split at h <;> cases h <;> rename_i hop
  case h_1 | h_2 | h_3 => -- shifts
    exact ⟨rfl, formatAImm_imm4 (BitVec.eq_of_toNat_eq hop)⟩
  case h_8 => -- NEG
    exact ⟨rfl, formatAReg_rd (BitVec.eq_of_toNat_eq hop)⟩
  case h_13 => -- CMP
    exact ⟨rfl, formatAReg_ra_rb (BitVec.eq_of_toNat_eq hop)⟩
  case h_17 => -- NOT
    exact ⟨rfl, formatAReg_rd_ra (BitVec.eq_of_toNat_eq hop)⟩
  case h_25 => -- 11100, PUSH and POP
    exact encode_decodeStack (BitVec.eq_of_toNat_eq hop)
  case h_27 => -- 11111, format D
    exact encode_decodeControl (BitVec.eq_of_toNat_eq hop)
  case h_5 | h_7 | h_10 | h_12 | h_19 | h_26 => -- a 5-bit immediate
    exact ⟨rfl, formatAImm_imm5 (BitVec.eq_of_toNat_eq hop)⟩
  case h_21 | h_22 | h_23 | h_24 => -- format B
    exact ⟨rfl, formatB_fields (BitVec.eq_of_toNat_eq hop)⟩
  all_goals -- three registers
    exact ⟨rfl, formatAReg_fields (BitVec.eq_of_toNat_eq hop)⟩

/-! ## Words that differ in unused bits -/

section
variable {w w' u : Word} (h : (w ^^^ w') &&& ~~~u = 0#16)
include h

theorem getLsbD_congr {k : Nat} (hu : u.getLsbD k = false) : w'.getLsbD k = w.getLsbD k := by
  by_cases hk : k < 16
  · have hbit := congrArg (BitVec.getLsbD · k) h
    simp only [BitVec.getLsbD_and, BitVec.getLsbD_xor, BitVec.getLsbD_not, hk, hu, decide_true, Bool.not_false,
      Bool.and_true, BitVec.getLsbD_zero, bne_eq_false_iff_eq] at hbit
    exact hbit.symm
  · rw [BitVec.getLsbD_of_ge w' k (not_lt.1 hk), BitVec.getLsbD_of_ge w k (not_lt.1 hk)]

/-- A field that holds no unused bit is the same in words that differ in unused bits alone. -/
theorem extract_congr {lo n : Nat} (hu : u.extractLsb' lo n = 0#n) : w'.extractLsb' lo n = w.extractLsb' lo n := by
  ext j hj
  have hbit := congrArg (BitVec.getLsbD · j) hu
  simp only [BitVec.getLsbD_extractLsb', hj, decide_true, Bool.true_and, BitVec.getLsbD_zero] at hbit
  simpa using getLsbD_congr h hbit

end

/-- No instruction leaves a bit of the opcode unused. -/
theorem opcodeField_unusedBits (i : Instr) : opcodeField (unusedBits i) = 0#5 := by
  cases i <;> simp only [unusedBits]
  case push link _ | pop link _ => cases link <;> rfl
  all_goals rfl

theorem decodeStack_congr {w w' : Word} (h : (w ^^^ w') &&& ~~~unusedBits (decodeStack w) = 0#16) :
    decodeStack w' = decodeStack w := by
  have hunused : unusedBits (decodeStack w) = stackUnusedBits (lField w) := by
    unfold decodeStack
    cases uField w <;> rfl
  rw [hunused] at h
  have hu : uField w' = uField w := getLsbD_congr h (by cases lField w <;> rfl)
  have hl : lField w' = lField w := getLsbD_congr h (by cases lField w <;> rfl)
  have hra : stackRa w' = stackRa w := by
    unfold stackRa
    rw [hl]
    cases hlink : lField w with
    | true => rfl
    | false =>
      rw [hlink] at h
      exact congrArg Reg.ofBits (extract_congr h rfl)
  rw [decodeStack, hu, hl, hra]
  rfl

theorem decodeControl_congr {w w' : Word} (h : (w ^^^ w') &&& ~~~unusedBits (decodeControl w) = 0#16) :
    decodeControl w' = decodeControl w := by
  have hcond : condField w' = condField w := by
    refine extract_congr h ?_
    unfold decodeControl
    split <;> simp only [unusedBits] <;> rfl
  unfold decodeControl at h ⊢
  rw [hcond]
  split at h <;> simp only [unusedBits] at h
  all_goals simp [raField, imm5Field, imm8Field, extract_congr h]

/-- The decoder reads no unused bit of the instruction it answers (R62). -/
theorem decode_congr {w w' : Word} {i : Instr} (hd : decode w = .ok i) (h : (w ^^^ w') &&& ~~~unusedBits i = 0#16) :
    decode w' = .ok i := by
  have hop : opcodeField w' = opcodeField w := extract_congr h (opcodeField_unusedBits i)
  rw [← hd]
  unfold decode at hd ⊢
  rw [hop]
  split at hd <;> cases hd
  case h_25 => exact congrArg Except.ok (decodeStack_congr h)
  case h_27 => exact congrArg Except.ok (decodeControl_congr h)
  all_goals
    simp only [unusedBits] at h
    simp [rdField, raField, rbField, imm4Field, imm5Field, imm8Field, extract_congr h]

end Sys2Proof.RoundTrip

open Sys2Proof Sys2Proof.RoundTrip

/-- Settles O1: the format's word of each instruction holds its operands in the fields the decoder reads. -/
theorem decodeInvertsEncode : Obligations.DecodeInvertsEncode :=
  fun _ h => decode_encode h

/-- Settles O2: each branch of the decoder reads exactly the fields that its format's word places. -/
theorem encodeClearsUnusedBitsOnly : Obligations.EncodeClearsUnusedBitsOnly :=
  fun _ _ h => encode_of_decode h

/-- Settles O3: each branch of the decoder reads fields that hold no unused bit of the instruction it answers. -/
theorem unusedBitsDoNotMatter : Obligations.UnusedBitsDoNotMatter :=
  fun _ _ _ hd h => decode_congr hd h

/-- Settles O5: the decoder run on the nine words. -/
theorem sampleWordsDecode : Obligations.SampleWordsDecode := by
  unfold Obligations.SampleWordsDecode
  decide

end

section
/-! What an instruction that completes can leave, said once: nine endings, each with what the tables of the spec say of
the instructions that end so. The frames of the whole machine are read off it. -/

namespace Sys2Proof.Frames

open Sys2Proof.Machine Sys2Proof.Claims

/-! ## The nine endings -/

/-- `Ending s i t`: `t` is what `i` leaves of `s`, by the shape of its last writes. Each hypothesis is a table's line
that permits one of the writes (R12, R13, R15, R19; 10_state.md section 2; 20_memory.md section 1). -/
inductive Ending (s : State) (i : Instr) : State → Prop
  | added (rd : Reg) (a b : Word) (cin : Bool) (hflags : flagsColumn i = .cvnz) (hdest : destination i = some rd) :
      Ending s i (addInto s rd a b cin)
  | compared (f : Flags) (hflags : flagsColumn i = .cvnz) : Ending s i (s.setFlags f).advance
  | logic (rd : Reg) (res : Word) (hflags : flagsColumn i = .z) (hdest : destination i = some rd) :
      Ending s i (logicInto s rd res)
  | moved (rd : Reg) (res : Word) (hdest : destination i = some rd) : Ending s i (moveInto s rd res)
  | jumped (target : Word) (hcontrol : isControl i = true) : Ending s i (s.setPc target)
  | linked (link target : Word) (hcontrol : isControl i = true) (hlr : writesLr i = true) :
      Ending s i ((s.setLr link).setPc target)
  | stored (a v : Word) (hstore : storeAddress s i = some a) (hadm : Admitted s a) :
      Ending s i ({ s with mem := s.mem.write a.toNat v } : State).advance
  | pushed (a v sp : Word) (hstore : storeAddress s i = some a) (hadm : Admitted s a) (hsp : writesSp i = true) :
      Ending s i (({ s with mem := s.mem.write a.toNat v } : State).setSp sp).advance
  | popped (link : Bool) (ra : Reg) (sp v : Word) (hi : i = .pop link ra) :
      Ending s i ((s.setSp sp).setStackDest link ra v).advance

theorem ending_branchIf (taken : Bool) (imm8 : BitVec 8) (s : State) {i : Instr} (hcontrol : isControl i = true) :
    Ending s i (branchIf taken imm8 s) := by
  cases taken
  · exact .jumped s.pc1 hcontrol
  · exact .jumped (branchTarget s imm8) hcontrol

theorem ending_of_exec {i : Instr} {s t : State} (h : exec i s = .next t) : Ending s i t := by
  cases i
  case add | addi | addib | adc | adci | neg | sub | subi | subib | suc | suci =>
    cases h
    exact .added _ _ _ _ rfl rfl
  case cmp =>
    cases h
    exact .compared _ rfl
  case and | or | xor | not | nand | nor =>
    cases h
    exact .logic _ _ rfl rfl
  case lsl | lsr | asr | lui | lli =>
    cases h
    exact .moved _ _ rfl
  case br | bne | be | blt | bge =>
    cases h
    exact ending_branchIf _ _ s rfl
  case ret | jmp =>
    cases h
    exact .jumped _ rfl
  case bwl =>
    cases h
    exact .linked _ _ rfl rfl
  case ldw =>
    obtain ⟨v, -, rfl⟩ := andThen_next.1 h
    exact .moved _ v rfl
  case stw =>
    obtain ⟨u, hu, rfl⟩ := andThen_next.1 h
    obtain ⟨hadm, rfl⟩ := storeWord_next.1 hu
    exact .stored _ _ rfl hadm
  case push =>
    obtain ⟨u, hu, rfl⟩ := andThen_next.1 h
    obtain ⟨hadm, rfl⟩ := storeWord_next.1 hu
    exact .pushed _ _ _ rfl hadm rfl
  case pop link ra =>
    obtain ⟨v, -, rfl⟩ := andThen_next.1 h
    exact .popped link ra _ v rfl

/-! ## What each ending leaves -/

section
variable {i : Instr} {s t : State} (h : Ending s i t)
include h

theorem Ending.text_cfg : t.text = s.text ∧ t.cfg = s.cfg := by
  cases h <;> simp

/-- The data memory is left as it is, or the one admitted word is written (R37, R204). -/
theorem Ending.mem :
    t.mem = s.mem ∨ ∃ a v, storeAddress s i = some a ∧ Admitted s a ∧ t.mem = s.mem.write a.toNat v := by
  cases h
  case stored a v hstore hadm => exact .inr ⟨a, v, hstore, hadm, rfl⟩
  case pushed a v sp hstore hadm hsp => exact .inr ⟨a, v, hstore, hadm, by simp⟩
  all_goals
    left
    simp

theorem Ending.flags_of_none (hcol : flagsColumn i = .none) : t.flags = s.flags := by
  cases h
  case added hflags _ | compared hflags | logic hflags _ => simp [hcol] at hflags
  all_goals simp

theorem Ending.flags_of_z (hcol : flagsColumn i = .z) :
    t.flags.c = s.flags.c ∧ t.flags.v = s.flags.v ∧ t.flags.n = s.flags.n := by
  cases h
  case added hflags _ | compared hflags => simp [hcol] at hflags
  all_goals simp

theorem Ending.reg {r : Reg} (hdest : destination i ≠ some r) (hsp : ¬ (writesSp i = true ∧ s.cfg.spAlias = some r))
    (hlr : ¬ (writesLr i = true ∧ s.cfg.lrAlias = some r)) : t.reg r = s.reg r := by
  cases h
  case added hd | logic hd | moved hd =>
    have hr : r ≠ _ := fun e => hdest (e ▸ hd)
    simp [hr]
  case linked hw => exact State.reg_setLr s _ fun e => hlr ⟨hw, e⟩
  case pushed hw => exact State.reg_setSp _ _ fun e => hsp ⟨hw, e⟩
  case popped link ra sp v hi =>
    subst hi
    have hsp' : (s.setSp sp).reg r = s.reg r := State.reg_setSp s sp fun e => hsp ⟨rfl, e⟩
    rw [State.advance_reg, ← hsp', State.setStackDest]
    cases link with
    | false => exact State.reg_setReg_ne _ _ fun e => hdest (e ▸ rfl)
    | true => exact State.reg_setLr _ _ fun e => hlr ⟨rfl, State.setSp_cfg s sp ▸ e⟩
  all_goals rfl

theorem Ending.sp (hsp : writesSp i = false) : t.sp = s.sp := by
  cases h
  case pushed hw => simp [hsp] at hw
  case popped hi => simp [hi, writesSp] at hsp
  all_goals simp

theorem Ending.lr (hlr : writesLr i = false) : t.lr = s.lr := by
  cases h
  case linked hw => simp [hlr] at hw
  case popped link ra sp v hi =>
    cases link with
    | false => simp [State.setStackDest]
    | true => simp [hi, writesLr] at hlr
  all_goals simp

theorem Ending.pc (hcontrol : isControl i = false) : t.pc = s.pc + 1 := by
  cases h
  case jumped hw | linked hw _ => simp [hcontrol] at hw
  all_goals simp

end

/-- A step ends as the instruction it decodes does. -/
theorem ending_of_step {s t : State} (h : step s = .next t) : ∃ i, Ending s i t := by
  obtain ⟨i, -, hi⟩ := step_next h
  exact ⟨i, ending_of_exec hi⟩

/-- An admitted store keeps the data memory clear of the program text (R34, R204). -/
theorem disjoint_write {s : State} (h : ∀ x ∈ s.mem, s.text.read x.1 = none) {a : Word} (hadm : Admitted s a)
    (v : Word) :
    ∀ x ∈ s.mem.write a.toNat v, s.text.read x.1 = none := by
  intro x hx
  obtain ⟨-, htext, -⟩ := hadm
  rcases Memory.mem_write hx with rfl | hx
  · exact not_not.1 htext
  · exact h x hx

end Sys2Proof.Frames

open Sys2Proof Sys2Proof.Machine Sys2Proof.Claims Sys2Proof.Frames

/-- Settles O12: only an admitted store changes a memory, and it keeps the form and the disjointness. -/
theorem stepKeepsInvariant : Obligations.StepKeepsInvariant := by
  rintro s t ⟨hmem, htext, hdisj⟩ hstep
  obtain ⟨i, hend⟩ := ending_of_step hstep
  obtain ⟨htext', -⟩ := hend.text_cfg
  rcases hend.mem with hmem' | ⟨a, v, -, hadm, hmem'⟩
  · rw [RunInv, hmem', htext']
    exact ⟨hmem, htext, hdisj⟩
  · rw [RunInv, hmem', htext']
    exact ⟨Memory.write_wf hmem a.isLt, htext, disjoint_write hdisj hadm v⟩

/-- Settles O13: no ending writes either. -/
theorem stepKeepsProgramAndParameters : Obligations.StepKeepsProgramAndParameters := by
  intro s t hstep
  obtain ⟨i, hend⟩ := ending_of_step hstep
  exact hend.text_cfg

/-- Settles O16, by the endings that write flags. -/
theorem flagsOutsideColumnKept : Obligations.FlagsOutsideColumnKept :=
  fun _ _ _ h => ⟨(ending_of_exec h).flags_of_none, (ending_of_exec h).flags_of_z⟩

/-- Settles O18, by the endings that write a general register. -/
theorem onlyDestinationRegisterChanges : Obligations.OnlyDestinationRegisterChanges :=
  fun _ _ _ _ h hdest hsp hlr => (ending_of_exec h).reg hdest hsp hlr

/-- Settles O19, by the endings that write SP or LR. -/
theorem spAndLrWrittenOnlyAsListed : Obligations.SpAndLrWrittenOnlyAsListed :=
  fun _ _ _ h => ⟨(ending_of_exec h).sp, (ending_of_exec h).lr⟩

/-- Settles O20: what an ending writes to the data memory is one word at the store address. -/
theorem onlyStoredWordChanges : Obligations.OnlyStoredWordChanges := by
  intro i s t h
  rcases (ending_of_exec h).mem with hmem | ⟨a, v, ha, -, hmem⟩
  · rw [hmem]
    exact ⟨fun _ _ => rfl, fun _ _ _ _ => rfl⟩
  · rw [hmem, ha]
    refine ⟨nofun, fun a' ha' b hb => ?_⟩
    cases ha'
    exact Memory.read_write_ne _ _ hb

/-- Settles O21: every ending but the two of control transfers advances pc. -/
theorem othersGoToNextWord : Obligations.OthersGoToNextWord := by
  intro i s t hcontrol h
  rw [(ending_of_exec h).pc hcontrol, BitVec.toNat_add]
  rfl

end

section
/-! What an instruction's outcome depends on: the only stops are those of its one data access (R200, R204), flags it
does not read are carried through (R20), and so are data words under the program text (R34). -/

namespace Sys2Proof.Outcomes

open Sys2Proof.Machine Sys2Proof.Claims

/-! ## Outcomes of accesses -/

theorem andThen_andThen {α β γ : Type} (o : Host.Outcome α Fault Refusal) (k : α → β) (k' : β → γ) :
    andThen (andThen o k) k' = andThen o (fun x => k' (k x)) := by
  cases o <;> rfl

/-- One outcome is related to the other where that is the same with each next state changed into a related one. -/
theorem related_andThen {R : State → State → Prop} {o : Host.Outcome State Fault Refusal} {k : State → State}
    (h : ∀ t, o = .next t → R t (k t)) : Related R o (andThen o k) := by
  cases o with
  | next t => exact h t rfl
  | fault f => exact rfl
  | refused r => exact rfl

theorem loadWord_outcomes (s : State) (a : Word) :
    (∃ v, loadWord s a = .next v) ∨ loadWord s a = .refused (.ioAccess a) ∨
      loadWord s a = .refused (.loadFromProgramText a) ∨ loadWord s a = .refused (.accessNotAdmitted a) ∨
      loadWord s a = .fault (.unwrittenRead a) := by
  unfold loadWord
  cases hr : accessRefusal s .loadFromProgramText a with
  | some r => rcases accessRefusal_eq_some hr with rfl | rfl | rfl <;> simp
  | none => cases s.mem.read a.toNat <;> simp

theorem storeWord_outcomes (s : State) (a v : Word) :
    (∃ t, storeWord s a v = .next t) ∨ storeWord s a v = .refused (.ioAccess a) ∨
      storeWord s a v = .refused (.storeToProgramText a) ∨ storeWord s a v = .refused (.accessNotAdmitted a) := by
  unfold storeWord
  cases hr : accessRefusal s .storeToProgramText a with
  | some r => rcases accessRefusal_eq_some hr with rfl | rfl | rfl <;> simp
  | none => simp

/-! ## The three kinds of instruction: no access, a load first, a store first -/

section
variable {i : Instr} {s : State}

theorem completes_of_no_access (hload : loadAddress s i = none) (hstore : storeAddress s i = none) :
    Completes (exec i s) := by
  cases i
  case ldw | pop => cases hload
  case stw | push => cases hstore
  all_goals exact ⟨_, rfl⟩

theorem exec_of_loadAddress {a : Word} (h : loadAddress s i = some a) :
    ∃ k : Word → State, exec i s = andThen (loadWord s a) k := by
  cases i
  case ldw | pop =>
    cases h
    exact ⟨_, rfl⟩
  all_goals cases h

theorem exec_of_storeAddress {a : Word} (h : storeAddress s i = some a) :
    ∃ (v : Word) (k : State → State), exec i s = andThen (storeWord s a v) k := by
  cases i
  case stw | push =>
    cases h
    exact ⟨_, _, rfl⟩
  all_goals cases h

end

/-! ## The same with other flags or another data memory -/

section
variable (s : State) (f : Flags) (m : Memory) (a v : Word)

theorem storeWord_withFlags :
    storeWord { s with flags := f } a v = andThen (storeWord s a v) (fun t => { t with flags := f }) := by
  unfold storeWord
  rw [accessRefusal_congr (s := s) (t := { s with flags := f }) rfl rfl]
  cases accessRefusal s .storeToProgramText a <;> rfl

theorem storeWord_withMem :
    storeWord { s with mem := m } a v = andThen (storeWord s a v) (fun t => { t with mem := m.write a.toNat v }) := by
  unfold storeWord
  rw [accessRefusal_congr (s := s) (t := { s with mem := m }) rfl rfl]
  cases accessRefusal s .storeToProgramText a <;> rfl

/-- A load reads no data word but the one at its address, and that only where it is admitted. -/
theorem loadWord_withMem (h : Admitted s a → m.read a.toNat = s.mem.read a.toNat) :
    loadWord { s with mem := m } a = loadWord s a := by
  unfold loadWord
  rw [accessRefusal_congr (s := s) (t := { s with mem := m }) rfl rfl]
  cases hr : accessRefusal s .loadFromProgramText a with
  | some r => rfl
  | none => rw [h ((accessRefusal_none s _ a).1 hr)]

theorem setSp_withFlags : ({ s with flags := f } : State).setSp v = { s.setSp v with flags := f } := by
  unfold State.setSp
  dsimp only
  split <;> rfl

theorem setLr_withFlags : ({ s with flags := f } : State).setLr v = { s.setLr v with flags := f } := by
  unfold State.setLr
  dsimp only
  split <;> rfl

theorem setSp_withMem : ({ s with mem := m } : State).setSp v = { s.setSp v with mem := m } := by
  unfold State.setSp
  dsimp only
  split <;> rfl

theorem setLr_withMem : ({ s with mem := m } : State).setLr v = { s.setLr v with mem := m } := by
  unfold State.setLr
  dsimp only
  split <;> rfl

end

/-! ## Flags that are not read -/

/-- The flags an instruction with the given Flags column leaves where it found `f`, from those `g` it leaves elsewhere
(R19). -/
def keepOutside : FlagsColumn → (f g : Flags) → Flags
  | .cvnz, _, g => g
  | .z, f, g => { f with z := g.z }
  | .none, f, _ => f

/-- R20 and R19 in one: flags the instruction does not read are carried through as far as it does not write them. -/
theorem exec_withFlags (i : Instr) (s : State) (f : Flags) (hc : readsC i = true → f.c = s.flags.c)
    (hz : readsZ i = true → f.z = s.flags.z) (hnv : readsNV i = true → f.n = s.flags.n ∧ f.v = s.flags.v) :
    exec i { s with flags := f } =
      andThen (exec i s) (fun t => { t with flags := keepOutside (flagsColumn i) f t.flags }) := by
  cases i
  case adc | adci | suc | suci =>
    simp only [exec, execAdc, execAdci, execSuc, execSuci, hc rfl]
    rfl
  case bne imm8 | be imm8 =>
    simp only [exec, execBne, execBe, hz rfl]
    cases s.flags.z <;> rfl
  case blt imm8 | bge imm8 =>
    simp only [exec, execBlt, execBge, hnv rfl]
    cases s.flags.n <;> cases s.flags.v <;> rfl
  case bwl =>
    simp only [exec, execBwl, setLr_withFlags]
    rfl
  case ldw =>
    simp only [exec, execLdw, andThen_andThen]
    rfl
  case stw =>
    simp only [exec, execStw, storeWord_withFlags, andThen_andThen]
    rfl
  case push =>
    simp only [exec, execPush, storeWord_withFlags, andThen_andThen, setSp_withFlags]
    rfl
  case pop link ra =>
    cases link <;>
      simp only [exec, execPop, andThen_andThen, State.setStackDest, setSp_withFlags, setLr_withFlags] <;> rfl
  all_goals rfl

/-! ## Data words that are not read -/

section
variable {i : Instr} {s : State} (m : Memory)

theorem exec_withMem_of_no_store (hstore : storeAddress s i = none)
    (hload : ∀ a, loadAddress s i = some a → Admitted s a → m.read a.toNat = s.mem.read a.toNat) :
    exec i { s with mem := m } = andThen (exec i s) (fun t => { t with mem := m }) := by
  cases i
  case stw | push => cases hstore
  case br | bne | be | blt | bge =>
    simp only [exec, execBr, execBne, execBe, execBlt, execBge, branchIf]
    split <;> rfl
  case bwl =>
    simp only [exec, execBwl, setLr_withMem]
    rfl
  case ldw rd ra imm5 =>
    have hword : loadWord { s with mem := m } (dataAddress s ra imm5) = _ := loadWord_withMem s m _ (hload _ rfl)
    simp only [exec, execLdw, andThen_andThen, ← hword]
    rfl
  case pop link ra =>
    have hword : loadWord { s with mem := m } (s.getSp + 1) = _ := loadWord_withMem s m _ (hload _ rfl)
    cases link <;>
      simp only [exec, execPop, andThen_andThen, ← hword, State.setStackDest, setSp_withMem, setLr_withMem] <;> rfl
  all_goals rfl

theorem exec_withMem_of_store {a : Word} (hstore : storeAddress s i = some a) :
    ∃ v, (∀ t, exec i s = .next t → t.mem = s.mem.write a.toNat v) ∧
      exec i { s with mem := m } = andThen (exec i s) (fun t => { t with mem := m.write a.toNat v }) := by
  cases i
  case stw rd _ _ =>
    cases hstore
    refine ⟨s.reg rd, fun t h => ?_, ?_⟩
    · obtain ⟨u, hu, rfl⟩ := andThen_next.1 h
      obtain ⟨-, rfl⟩ := storeWord_next.1 hu
      rfl
    · simp only [exec, execStw, storeWord_withMem, andThen_andThen]
      rfl
  case push link ra =>
    cases hstore
    refine ⟨stackSource s link ra, fun t h => ?_, ?_⟩
    · obtain ⟨u, hu, rfl⟩ := andThen_next.1 h
      obtain ⟨-, rfl⟩ := storeWord_next.1 hu
      simp
    · simp only [exec, execPush, storeWord_withMem, andThen_andThen, setSp_withMem]
      rfl
  all_goals cases hstore

end

end Sys2Proof.Outcomes

open Sys2Proof Sys2Proof.Machine Sys2Proof.Claims Sys2Proof.Outcomes

/-- Settles O15: an instruction's one access is the first thing it does, and it stops as that access does. -/
theorem onlyDataAccessesStop : Obligations.OnlyDataAccessesStop := by
  refine fun i s => ⟨completes_of_no_access, fun a ha => ?_, fun a ha => ?_⟩
  · obtain ⟨k, hexec⟩ := exec_of_loadAddress ha
    rw [hexec]
    rcases loadWord_outcomes s a with ⟨v, hv⟩ | hv | hv | hv | hv <;> simp [hv, Completes]
  · obtain ⟨v, k, hexec⟩ := exec_of_storeAddress ha
    rw [hexec]
    rcases storeWord_outcomes s a v with ⟨t, ht⟩ | ht | ht | ht <;> simp [ht, Completes]

/-- Settles O17: the outcome with other unread flags is the outcome, with those flags outside its Flags column. -/
theorem flagsReadOnlyAsListed : Obligations.FlagsReadOnlyAsListed := by
  intro i s f hc hz hnv
  rw [exec_withFlags i s f hc hz hnv]
  refine related_andThen fun t _ => ⟨rfl, fun h => ?_, fun h => ?_, fun h => ?_⟩ <;> simp [h, keepOutside]

/-- Settles O22: a load there is refused before it reads, and a store writes the same word to either memory. -/
theorem dataUnderProgramTextUnobservable : Obligations.DataUnderProgramTextUnobservable := by
  intro i s m hm
  cases hstore : storeAddress s i with
  | none =>
    have hload : ∀ a, loadAddress s i = some a → Admitted s a → m.read a.toNat = s.mem.read a.toNat :=
      fun a _ ⟨_, htext, _⟩ => hm a.toNat (not_not.1 htext)
    rw [exec_withMem_of_no_store m hstore hload]
    refine related_andThen fun t ht => ⟨rfl, fun b hb => ?_⟩
    obtain ⟨hkept, -⟩ := onlyStoredWordChanges i s t ht
    exact (hm b hb).trans (hkept hstore b).symm
  | some a =>
    obtain ⟨v, hmem, hexec⟩ := exec_withMem_of_store m hstore
    rw [hexec]
    refine related_andThen fun t ht => ⟨rfl, fun b hb => ?_⟩
    rw [hmem t ht]
    by_cases hba : b = a.toNat
    · rw [hba, Memory.read_write_same, Memory.read_write_same]
    · rw [Memory.read_write_ne _ _ hba, Memory.read_write_ne _ _ hba, hm b hb]

end

section
/-! The step around an instruction (R6, R202, R203, R206), the launch (R230 to R232), the end of a run (R236), and the
labels a branch reaches (R78, R170). -/

namespace Sys2Proof.Stepping

open Sys2Proof.Machine Sys2Proof.Claims Sys2Proof.Branches

/-! ## Fetch and decode, by the word at `pc` -/

section
variable {s : State} {w : Word} {i : Instr}

theorem fetchDecode_of_unwritten (h : s.text.read s.pc.toNat = none) :
    fetchDecode s = .fault (.fetchUndefined s.pc) := by
  rw [fetchDecode, h]

theorem fetchDecode_of_error {e : DecodeError} (h : s.text.read s.pc.toNat = some w) (hd : decode w = .error e) :
    fetchDecode s = .fault (.illegalInstruction w s.pc) := by
  simp only [fetchDecode, h, hd]

theorem fetchDecode_of_ok (h : s.text.read s.pc.toNat = some w) (hd : decode w = .ok i) :
    fetchDecode s = if s.cfg.strictUnusedFields = true ∧ w &&& unusedBits i ≠ 0#16 then
      .refused (.unusedFieldNonzero w) else .next i := by
  simp [fetchDecode, h, hd, hasUnusedBitSet]

theorem step_of_ok (h : s.text.read s.pc.toNat = some w) (hd : decode w = .ok i)
    (hunused : s.cfg.strictUnusedFields = false ∨ w &&& unusedBits i = 0#16) : step s = exec i s := by
  rw [step, fetchDecode_of_ok h hd, if_neg]
  rintro ⟨hstrict, hset⟩
  rcases hunused with hlenient | hclean
  · simp [hlenient] at hstrict
  · exact hset hclean

end

theorem decode_of_decodeTableWord {n w : Nat} {i : Instr} (h : decodeTableWord n w = some i) :
    decode (tableWord n w) = .ok i := by
  unfold decodeTableWord at h
  split at h
  case h_1 j hj => exact hj.trans (congrArg Except.ok (Option.some.inj h))
  case h_2 => cases h

/-! ## Branch targets -/

/-- The imm8 of a distance in reach takes the branch that distance beyond the next instruction. -/
theorem branchTarget_ofInt (s : State) {d : Int} (hlo : -128 ≤ d) (hhi : d ≤ 127) :
    branchTarget s (BitVec.ofInt 8 d) = BitVec.ofInt 16 ((s.pc.toNat : Int) + 1 + d) := by
  have htarget := branchTarget_toNat s (BitVec.ofInt 8 d)
  rw [BitVec.toInt_ofInt_eq_self (by decide) (by omega) (by omega)] at htarget
  apply BitVec.eq_of_toNat_eq
  rw [BitVec.toNat_ofInt]
  omega

/-- BR by -1 goes back to itself. -/
theorem exec_br_self (s : State) : exec (.br 0xFF) s = .next s := by
  have htarget : branchTarget s 0xFF = s.pc := by
    have hofInt := branchTarget_ofInt s (d := -1) (by decide) (by decide)
    simpa using hofInt
  rw [exec, execBr, branchIf, if_pos rfl, htarget]
  rfl

theorem step_of_ended {s : State} (h : Ended s) : step s = .next s :=
  (step_of_ok h (by decide) (.inr (by decide))).trans (exec_br_self s)

end Sys2Proof.Stepping

open Sys2Proof Sys2Proof.Machine Sys2Proof.Claims Sys2Proof.Stepping

/-- Settles O6: a distance in reach is its imm8 sign-extended, so the target is the label, across the wrap too. -/
theorem labelOffsetReachesLabel : Obligations.LabelOffsetReachesLabel := by
  refine ⟨fun s t d hd => ⟨fun hlo hhi => ?_, fun hfar => ?_⟩, fun s d => branchTarget_ofInt s⟩
  · refine ⟨BitVec.ofInt 8 d, labelImm8_eq_some.2 ?_, ?_, ?_⟩
    · subst hd
      exact ⟨⟨hlo, hhi⟩, rfl⟩
    · rw [BitVec.toNat_ofInt]
      omega
    · rw [branchTarget_ofInt s hlo hhi, show (s.pc.toNat : Int) + 1 + d = t.toNat by omega]
      simp
  · subst hd
    exact labelImm8_eq_none.2 hfar

/-- Settles O7: fetch and decode answer the instruction, and the step is what it does. -/
theorem stepRunsDecodedInstruction : Obligations.StepRunsDecodedInstruction :=
  fun _ _ _ => step_of_ok

/-- Settles O8: fetch and decode stop, and the step stops with them. -/
theorem stepStopsBeforeExec : Obligations.StepStopsBeforeExec := by
  refine fun s => ⟨fun h => ?_, fun w e h hd => ?_, fun w i h hd hstrict hset => ?_⟩
  · rw [step, fetchDecode_of_unwritten h]
  · rw [step, fetchDecode_of_error h hd]
  · rw [step, fetchDecode_of_ok h hd, if_pos ⟨hstrict, hset⟩]

/-- Settles O9: the placed word is read back at `pc`, and no other address is written. -/
theorem placedWordIsFetched : Obligations.PlacedWordIsFetched := by
  intro s w i hi hstrict
  refine ⟨step_of_ok (Memory.read_write_same _ _ _) (decode_of_decodeTableWord hi) (.inl hstrict), fun a ha => ?_⟩
  exact Memory.read_write_ne _ _ ha

/-- Settles O10: SP is set last, and sets nothing else. -/
theorem launchFixesPcAndSp : Obligations.LaunchFixesPcAndSp := by
  refine ⟨fun l => ?_, rfl, rfl, rfl, rfl, fun r => ?_, rfl⟩
  · simp [State.launch]
  · cases r <;> rfl

/-- Settles O11: the launch's memories are the state's. -/
theorem invariantHoldsAtLaunch : Obligations.InvariantHoldsAtLaunch := by
  have ⟨hreset_mem, hreset_text⟩ := State.reset_memories_wf
  refine ⟨⟨hreset_mem, hreset_text, nofun⟩, fun l htext hmem hdisj => ?_⟩
  obtain ⟨hlaunch, -⟩ := launchFixesPcAndSp
  obtain ⟨-, -, htext', hmem', -⟩ := hlaunch l
  rw [RunInv, hmem', htext']
  exact ⟨hmem, htext, hdisj⟩

/-- Settles O14, by induction on the number of steps: each is the self-branch, which leaves the state. -/
theorem selfBranchEndsRun : Obligations.SelfBranchEndsRun := by
  intro k s h
  induction k with
  | zero => rfl
  | succ k ih =>
    have hstep : Sys2Proof.core.step s = .next s := step_of_ended h
    simp only [Host.Core.run, hstep]
    exact ih

end

section
/-! Uses of the adder (spec/40_data_manipulation_arith.md): its exactness, branches after a compare, double words. -/

namespace Sys2Proof.DoubleWords

open Sys2Proof.Machine Sys2Proof.Claims Sys2Proof.Adder

/-- The result and the carry out make up the exact sum of 17 bits. -/
theorem adder_toNat (a b : Word) (cin : Bool) :
    (adderResult a b cin).toNat + (adderFlags a b cin).c.toNat * 65536 = a.toNat + b.toNat + cin.toNat := by
  have ha := a.isLt
  have hb := b.isLt
  have hcin := cin.toNat_le
  have hc := adderFlags_c_iff a b cin
  have hres : (adderResult a b cin).toNat = (a.toNat + b.toNat + cin.toNat) % 65536 := BitVec.toNat_ofNat ..
  rw [hres]
  cases h : (adderFlags a b cin).c <;> rw [h] at hc <;>
    simp only [Bool.toNat_true, Bool.toNat_false, Bool.false_eq_true, true_iff, false_iff] at hc ⊢ <;> omega

/-- Complementing the second operand subtracts it, the missing carry being the borrow. -/
theorem adder_not_toNat (a b : Word) (c : Bool) :
    ((adderResult a (~~~ b) c).toNat : Int) - bit (!(adderFlags a (~~~ b) c).c) * 65536 =
      a.toNat - b.toNat - bit (!c) := by
  have hsum := adder_toNat a (~~~ b) c
  have hb := b.isLt
  have hnot (x : Bool) : bit (!x) = 1 - (x.toNat : Int) := by cases x <;> rfl
  rw [BitVec.toNat_not] at hsum
  rw [hnot, hnot]
  omega

end Sys2Proof.DoubleWords

open Sys2Proof Sys2Proof.Machine Sys2Proof.Claims Sys2Proof.Adder Sys2Proof.Branches Sys2Proof.DoubleWords

/-- Settles O23: the adder's sum and difference, and what the flags of a difference tell. -/
theorem adderIsExact : Obligations.AdderIsExact :=
  ⟨sumFlags_adder, diffFlags_adder, fun a b => n_ne_v_iff_of_diffFlags (diffFlags_adder a b true)⟩

/-- Settles O28: z after CMP is equality and n ≠ v is signed less, which are the branches' conditions. -/
theorem branchAfterCompareTellsOrder : Obligations.BranchAfterCompareTellsOrder := by
  intro s t ra rb imm8 h
  obtain ⟨-, hcmp⟩ := compareWritesFlagsOnly
  obtain ⟨t', ht', -, -, -, hz, hnv, -⟩ := hcmp s ra rb
  obtain rfl : t' = t := by simpa [ht'] using h
  refine ⟨⟨_, rfl, movesPc_branchIf hz imm8 t'⟩, ⟨_, rfl, ?_⟩, ⟨_, rfl, ?_⟩, ⟨_, rfl, ?_⟩⟩
  · rw [← ite_not]
    exact movesPc_branchIf (by rw [← hz, Bool.not_eq_true', Bool.not_eq_true]) imm8 t'
  · exact movesPc_branchIf (bne_iff_ne.trans hnv) imm8 t'
  · rw [← ite_not]
    exact movesPc_branchIf (beq_iff_eq.trans (by rw [← hnv, not_not])) imm8 t'

/-- Settles O29: the low sum's carry out is the high sum's carry in. -/
theorem addThenAdcAddsDoubleWords : Obligations.AddThenAdcAddsDoubleWords := by
  intro s t dl al bl dh ah bh hah hbh hdh h
  cases h
  refine ⟨_, rfl, ?_⟩
  rw [addInto_flags, addInto_reg, addInto_reg_ne _ _ _ _ _ hdh.symm, addInto_reg, addInto_reg_ne _ _ _ _ _ hah,
    addInto_reg_ne _ _ _ _ _ hbh, addInto_flags]
  have hlow := adder_toNat (s.reg al) (s.reg bl) false
  have hhigh := adder_toNat (s.reg ah) (s.reg bh) (adderFlags (s.reg al) (s.reg bl) false).c
  rw [Bool.toNat_false] at hlow
  omega

/-- Settles O30: the low difference's borrow is the high difference's. -/
theorem subThenSucSubtractsDoubleWords : Obligations.SubThenSucSubtractsDoubleWords := by
  intro s t dl al bl dh ah bh hah hbh hdh h
  cases h
  refine ⟨_, rfl, ?_⟩
  rw [addInto_flags, addInto_reg, addInto_reg_ne _ _ _ _ _ hdh.symm, addInto_reg, addInto_reg_ne _ _ _ _ _ hah,
    addInto_reg_ne _ _ _ _ _ hbh, addInto_flags]
  have hlow := adder_not_toNat (s.reg al) (s.reg bl) true
  have hhigh := adder_not_toNat (s.reg ah) (s.reg bh) (adderFlags (s.reg al) (~~~ s.reg bl) true).c
  rw [show bit (!true) = 0 from rfl] at hlow
  omega

end

section
/-! The byte loads (spec/42_byte_immediate.md) and the copy idiom: a byte load joins the byte with the register's other
one. -/

namespace Sys2Proof.ByteLoads

open Sys2Proof.Machine Sys2Proof.Claims Sys2Proof.LogicShift Sys2Proof.RoundTrip

/-! ## A word as its two bytes -/

/-- The word with the given upper and lower byte. -/
def joinBytes (hi lo : BitVec 8) : Word := place hi 8 ||| place lo 0

theorem withUpperByte_eq (x : Word) (imm8 : BitVec 8) : withUpperByte x imm8 = joinBytes imm8 (x.extractLsb' 0 8) := by
  rw [joinBytes, place_extract]
  rfl

theorem withLowerByte_eq (x : Word) (imm8 : BitVec 8) : withLowerByte x imm8 = joinBytes (x.extractLsb' 8 8) imm8 := by
  rw [joinBytes, place_extract, show place imm8 0 = imm8.setWidth 16 from BitVec.shiftLeft_zero _]
  rfl

theorem joinBytes_toNat (hi lo : BitVec 8) : (joinBytes hi lo).toNat = hi.toNat * 256 + lo.toNat := by
  have hhi : (place hi 8).toNat = hi.toNat <<< 8 := by
    have := hi.isLt
    simp only [place, BitVec.toNat_shiftLeft, BitVec.toNat_setWidth, Nat.shiftLeft_eq]
    omega
  have hlo : (place lo 0).toNat = lo.toNat := by
    have := lo.isLt
    simp only [place, BitVec.shiftLeft_zero, BitVec.toNat_setWidth]
    omega
  rw [joinBytes, BitVec.toNat_or, hhi, hlo, ← Nat.shiftLeft_add_eq_or_of_lt lo.isLt, Nat.shiftLeft_eq]

@[simp] theorem extract_upper_joinBytes (hi lo : BitVec 8) : (joinBytes hi lo).extractLsb' 8 8 = hi := by
  simp [joinBytes, BitVec.extractLsb'_or, extract_place_same, extract_place_disjoint]

@[simp] theorem extract_lower_joinBytes (hi lo : BitVec 8) : (joinBytes hi lo).extractLsb' 0 8 = lo := by
  simp [joinBytes, BitVec.extractLsb'_or, extract_place_same, extract_place_disjoint]

theorem joinBytes_extract (k : Word) : joinBytes (k.extractLsb' 8 8) (k.extractLsb' 0 8) = k := by
  rw [joinBytes, place_extract, place_extract, ← BitVec.and_or_distrib_left]
  exact BitVec.and_allOnes

/-! ## Frames, one after the other -/

theorem onlyRegs_trans {rs : List Reg} {s t u : State} (hst : OnlyRegs rs s t) (htu : OnlyRegs rs t u) :
    OnlyRegs rs s u := by
  obtain ⟨hreg, hsp, hlr, hmem, htext, hcfg⟩ := hst
  obtain ⟨hreg', hsp', hlr', hmem', htext', hcfg'⟩ := htu
  exact ⟨fun r hr => (hreg' r hr).trans (hreg r hr), hsp'.trans hsp, hlr'.trans hlr,
    fun a => (hmem' a).trans (hmem a), htext'.trans htext, hcfg'.trans hcfg⟩

theorem onlyRegs_moveInto_twice (s : State) (rd : Reg) (x y : Word) :
    OnlyRegs [rd] s (moveInto (moveInto s rd x) rd y) :=
  onlyRegs_trans (onlyRegs_moveInto s rd x) (onlyRegs_moveInto (moveInto s rd x) rd y)

end Sys2Proof.ByteLoads

open Sys2Proof Sys2Proof.Machine Sys2Proof.Claims Sys2Proof.LogicShift Sys2Proof.ByteLoads

/-- Settles O35: each result is the two bytes joined, the immediate and the one kept. -/
theorem loadByteKeepsOtherByte : Obligations.LoadByteKeepsOtherByte := by
  refine ⟨⟨?_, ?_⟩, fun s rd imm8 => ⟨⟨_, rfl, ?_, movedInto_moveInto s rd _⟩,
    ⟨_, rfl, ?_, movedInto_moveInto s rd _⟩⟩⟩
  case refine_1 | refine_2 => -- the opcode selects the decoder's arm
    intro w hop
    simp only [decode, opcodeField, hop]
    rfl
  · rw [moveInto_reg, withUpperByte_eq, joinBytes_toNat, BitVec.extractLsb'_toNat, Nat.shiftRight_zero]
  · have := (s.reg rd).isLt
    rw [moveInto_reg, withLowerByte_eq, joinBytes_toNat, BitVec.extractLsb'_toNat, Nat.shiftRight_eq_div_pow]
    omega

/-- Settles O36: the second load keeps the byte that the first replaced. -/
theorem bytePairLoadsConstant : Obligations.BytePairLoadsConstant := by
  refine fun s rd k => ⟨⟨_, _, rfl, rfl, ?_, rfl, onlyRegs_moveInto_twice s rd _ _⟩,
    ⟨_, _, rfl, rfl, ?_, rfl, onlyRegs_moveInto_twice s rd _ _⟩⟩
  · rw [moveInto_reg, moveInto_reg, withLowerByte_eq, withUpperByte_eq, extract_lower_joinBytes, joinBytes_extract]
  · rw [moveInto_reg, moveInto_reg, withUpperByte_eq, withLowerByte_eq, extract_upper_joinBytes, joinBytes_extract]

/-- Settles O33: a shift by 0 is the identity, and a register written with its own value is unchanged. -/
theorem shiftByZeroCopies : Obligations.ShiftByZeroCopies := by
  refine fun s rd ra => ⟨⟨_, rfl, ?_, movedInto_moveInto s rd _⟩, ?_⟩
  · rw [moveInto_reg]
    exact BitVec.shiftLeft_zero _
  · have hcopy : s.reg ra <<< (0 : BitVec 4).toNat = s.reg ra := BitVec.shiftLeft_zero _
    rw [exec, execLsl, hcopy, moveInto, State.setReg, State.reg, Regs.set_get_self]
    rfl

end

section
/-! Computed addresses (R32, R71, R72), JMP, and the pair BWL and RET (spec/44_control_transfer.md, section 3). -/

namespace Sys2Proof.Targets

open Sys2Proof.Machine Sys2Proof.Claims Sys2Proof.Branches

/-! ## A register plus a 5-bit offset, for both extensions -/

theorem add_offset5_zero (x : Word) (imm5 : BitVec 5) :
    (x + offset5 .zero imm5).toNat = (x.toNat + imm5.toNat) % 65536 := by
  have := imm5.isLt
  rw [BitVec.toNat_add, offset5, BitVec.toNat_setWidth]
  omega

theorem add_offset5_sign (x : Word) (imm5 : BitVec 5) :
    ((x + offset5 .sign imm5).toNat : Int) = (x.toNat + imm5.toInt) % 65536 := by
  have hsum : x + offset5 .sign imm5 = BitVec.ofInt 16 ((x.toNat : Int) + imm5.toInt) := by
    rw [BitVec.ofInt_add, BitVec.ofInt_natCast, BitVec.ofNat_toNat, BitVec.setWidth_eq]
    rfl
  rw [hsum, BitVec.toNat_ofInt]
  omega

theorem pc1_toNat (s : State) : s.pc1.toNat = (s.pc.toNat + 1) % 65536 :=
  BitVec.toNat_add ..

end Sys2Proof.Targets

open Sys2Proof Sys2Proof.Machine Sys2Proof.Claims Sys2Proof.Branches Sys2Proof.Targets

/-- Settles O37: each address is a register plus an extended offset, or the next instruction's plus imm8. -/
theorem computedAddressesWrap : Obligations.ComputedAddressesWrap := by
  refine fun s ra imm5 imm8 => ⟨fun h => ?_, fun h => ?_, fun h => ?_, fun h => ?_, branchTarget_toNat s imm8⟩
  · rw [dataAddress, h, add_offset5_zero]
  · rw [dataAddress, h, add_offset5_sign]
  · rw [jumpTarget, h, add_offset5_zero]
  · rw [jumpTarget, h, add_offset5_sign]

/-- Settles O44: JMP writes its target to pc and nothing else; the target is exact under both extensions. -/
theorem jumpGoesToRegisterPlusOffset : Obligations.JumpGoesToRegisterPlusOffset := by
  refine ⟨fun w hhi => ?_, fun s ra imm5 => ⟨_, rfl, rfl, ?_⟩⟩
  · simp only [decode, decodeControl, opcodeField_eq_upperByte, condField_eq_upperByte, hhi]
    rfl
  · obtain ⟨-, -, hzero, hsign, -⟩ := computedAddressesWrap s ra imm5 0
    rw [State.setPc_pc]
    cases hext : s.cfg.jmpImm5Ext with
    | zero => exact congrArg Nat.cast (hzero hext)
    | sign => exact hsign hext

/-- Settles O42: BWL writes LR, wherever LR_ALIAS puts it, and pc; RET writes pc. -/
theorem branchWithLinkAndReturn : Obligations.BranchWithLinkAndReturn := by
  refine ⟨⟨?_, ?_⟩, fun s imm8 => ⟨⟨_, rfl, ?_, branchTarget_toNat s imm8, ?_, fun r hr => ?_, fun halias => ?_⟩,
    ⟨_, rfl, rfl, rfl⟩⟩⟩
  case refine_1 | refine_2 => -- the upper byte selects the decoder's arm
    intro w hhi
    simp only [decode, decodeControl, opcodeField_eq_upperByte, condField_eq_upperByte, hhi]
    rfl
  · rw [State.setPc_getLr, State.getLr_setLr, pc1_toNat]
  · ext1 <;> simp
  · exact State.reg_setLr s s.pc1 hr
  · exact State.setLr_lr_of_alias s s.pc1 halias

/-- Settles O43: RET goes to LR and leaves it, and BWL left the next instruction's address there. -/
theorem returnResumesAfterCall : Obligations.ReturnResumesAfterCall := by
  intro s t u imm8 h hlr
  cases h
  refine ⟨_, rfl, ?_, rfl⟩
  rw [State.setPc_pc, hlr, State.setPc_getLr, State.getLr_setLr]
  rfl

end

section
/-! Loads (spec/43_data_transfer.md, LDW) and the stack (spec/45_stack_operations.md): an instruction whose access is a
load completes or stops as the load does, and a load reads what was last stored at its address. -/

namespace Sys2Proof.LoadsAndStack

open Sys2Proof.Machine Sys2Proof.Claims

/-! ## Loads -/

theorem loadWord_of_refusal {s : State} {a : Word} {r : Refusal}
    (h : accessRefusal s .loadFromProgramText a = some r) : loadWord s a = .refused r := by
  simp only [loadWord, h]

theorem loadWord_of_unwritten {s : State} {a : Word} (hadm : Admitted s a) (h : s.mem.read a.toNat = none) :
    loadWord s a = .fault (.unwrittenRead a) := by
  simp only [loadWord, (accessRefusal_none s _ a).2 hadm, h]

/-- A load stops its instruction as the checks of R204 do, whatever would follow. -/
theorem refusedInOrder_andThen_loadWord (s : State) (a : Word) (k : Word → State) :
    RefusedInOrder s a (.loadFromProgramText a) (andThen (loadWord s a) k) := by
  have ⟨hio, htext, hlaunched⟩ := accessRefusal_some s .loadFromProgramText a
  refine ⟨fun h => ?_, fun h h' => ?_, fun h h' h'' => ?_⟩
  · rw [loadWord_of_refusal (hio h), andThen_of_refused]
  · rw [loadWord_of_refusal (htext h h'), andThen_of_refused]
  · rw [loadWord_of_refusal (hlaunched h h' h''), andThen_of_refused]

theorem admitted_congr {s t : State} (htext : t.text = s.text) (hcfg : t.cfg = s.cfg) {a : Word} (h : Admitted s a) :
    Admitted t a := by
  rwa [Admitted, IsIo, IsText, IsLaunched, htext, hcfg]

/-- A load reads the word last stored at its address. -/
theorem loadWord_of_stored {s t : State} {a v : Word} (htext : t.text = s.text) (hcfg : t.cfg = s.cfg)
    (hmem : t.mem = s.mem.write a.toNat v) (hadm : Admitted s a) : loadWord t a = .next v :=
  loadWord_next.2 ⟨admitted_congr htext hcfg hadm, hmem ▸ Memory.read_write_same _ _ _⟩

/-! ## The selecting fields of format E, in the upper six bits of the word -/

theorem opcodeField_eq_upperSix (w : Word) : opcodeField w = (w.extractLsb' 10 6).extractLsb' 1 5 := by
  ext k hk
  simp [opcodeField, show 1 + k < 6 by omega, ← Nat.add_assoc]

theorem uField_eq_upperSix (w : Word) : uField w = (w.extractLsb' 10 6).getLsbD 0 := by
  simp [uField]

/-! ## The stack's registers -/

section
variable (s : State) (link : Bool) (ra : Reg) (v : Word)

/-- The destination of a POP holds the loaded word. -/
theorem read_setStackDest :
    (if link then (s.setStackDest link ra v).getLr else (s.setStackDest link ra v).reg ra) = v := by
  cases link <;> simp [State.setStackDest]

/-- The destination of a POP leaves SP, unless it is SP itself. -/
theorem getSp_setStackDest (h : s.cfg.spAlias = none ∨ s.cfg.spAlias ≠ (if link then s.cfg.lrAlias else some ra)) :
    (s.setStackDest link ra v).getSp = s.getSp := by
  cases link with
  | false =>
    refine State.getSp_setReg s v fun e => ?_
    rcases h with h | h
    · simp [h] at e
    · exact h e
  | true => exact State.getSp_setLr s v h

theorem onlySp_setSp : OnlySp [] s (s.setSp v) :=
  ⟨fun _ _ halias => State.reg_setSp s v halias, State.setSp_sp_of_alias s v⟩

/-- The destination of a POP is the one other register it may write. -/
theorem onlySp_pop (a : Word) :
    OnlySp (if link then s.cfg.lrAlias.toList else [ra]) s ((s.setSp a).setStackDest link ra v).advance := by
  obtain ⟨hreg, hsp⟩ := onlySp_setSp s a
  refine ⟨fun r hr halias => ?_, fun halias => ?_⟩
  · refine Eq.trans ?_ (hreg r List.not_mem_nil halias)
    cases link with
    | false => exact State.reg_setReg_ne _ v (List.ne_of_not_mem_cons hr)
    | true =>
      refine State.reg_setLr _ v fun e => hr ?_
      rw [State.setSp_cfg] at e
      simp [e]
  · rw [State.advance_sp, State.setStackDest_sp, hsp halias]

theorem pred_toNat (x : Word) : ((x - 1).toNat : Int) = ((x.toNat : Int) - 1) % 65536 := by
  bv_omega

end

end Sys2Proof.LoadsAndStack

open Sys2Proof Sys2Proof.Machine Sys2Proof.Claims Sys2Proof.LogicShift Sys2Proof.DataTransfer Sys2Proof.LoadsAndStack

/-- Settles O38: LDW is a load at its address, then a move into Rd. -/
theorem loadReadsWordAtAddress : Obligations.LoadReadsWordAtAddress := by
  refine ⟨fun w hop => ?_, ?_⟩
  · simp only [decode, opcodeField, hop]
    rfl
  · rintro s rd ra imm5 _ rfl
    refine ⟨fun v hadm hv => ⟨_, andThen_next.2 ⟨v, loadWord_next.2 ⟨hadm, hv⟩, rfl⟩, moveInto_reg s rd v,
      movedInto_moveInto s rd v⟩, fun hadm hnone => ?_, refusedInOrder_andThen_loadWord s _ _⟩
    · rw [exec, execLdw, loadWord_of_unwritten hadm hnone, andThen_of_fault]

/-- Settles O40: the store that completed was admitted, so the load is, and it reads the stored word. -/
theorem loadAfterStoreReturnsValue : Obligations.LoadAfterStoreReturnsValue := by
  intro s t rd ra rd' ra' imm5 imm5' h haddr
  obtain ⟨u, hu, rfl⟩ := andThen_next.1 h
  obtain ⟨hadm, rfl⟩ := storeWord_next.1 hu
  refine ⟨_, andThen_next.2 ⟨s.reg rd, ?_, rfl⟩, moveInto_reg _ rd' (s.reg rd)⟩
  rw [haddr]
  exact loadWord_of_stored (s := s) rfl rfl rfl hadm

/-- Settles O45: PUSH is a store at SP, then SP one less, wherever SP_ALIAS puts it. -/
theorem pushStoresThenDecrements : Obligations.PushStoresThenDecrements := by
  refine ⟨fun w hhi => ⟨fun hl => ?_, fun hl => ?_⟩, fun s link ra =>
    ⟨fun hadm => ⟨_, andThen_storeWord_of_admitted hadm _ _, ?_, ?_, ?_, ?_⟩, refusedInOrder_andThen_storeWord s _ _ _⟩⟩
  case refine_1 | refine_2 => -- the upper six bits select the decoder's arm, L the operand
    simp only [decode, decodeStack, stackRa, lField, opcodeField_eq_upperSix, uField_eq_upperSix, hhi, hl]
    rfl
  · exact storesAt_of_mem_write (by simp [stackSource])
  · rw [State.advance_getSp, State.getSp_setSp, pred_toNat]
  · exact onlySp_setSp { s with mem := s.mem.write s.getSp.toNat (stackSource s link ra) } (s.getSp - 1)
  · ext1 <;> simp

/-- Settles O46: POP is a load at SP plus one, then the new SP, then the destination. -/
theorem popIncrementsThenLoads : Obligations.PopIncrementsThenLoads := by
  refine ⟨fun w hhi => ⟨fun hl => ?_, fun hl => ?_⟩, fun s ra a ha => ?_⟩
  case refine_1 | refine_2 => -- the upper six bits select the decoder's arm, L the operand
    simp only [decode, decodeStack, stackRa, lField, opcodeField_eq_upperSix, uField_eq_upperSix, hhi, hl]
    rfl
  obtain rfl : a = s.getSp + 1 := by bv_omega
  refine ⟨fun v hadm hv => ?_, fun link hadm hnone => ?_, fun link => refusedInOrder_andThen_loadWord s _ _⟩
  · have hexec (link : Bool) :
        exec (.pop link ra) s = .next ((s.setSp (s.getSp + 1)).setStackDest link ra v).advance :=
      andThen_next.2 ⟨v, loadWord_next.2 ⟨hadm, hv⟩, rfl⟩
    have hdest (link : Bool) := read_setStackDest (s.setSp (s.getSp + 1)) link ra v
    have hsp (link : Bool) (h : s.cfg.spAlias = none ∨ s.cfg.spAlias ≠ if link then s.cfg.lrAlias else some ra) :
        ((s.setSp (s.getSp + 1)).setStackDest link ra v).getSp = s.getSp + 1 := by
      rw [getSp_setStackDest _ _ _ _ (by rwa [State.setSp_cfg]), State.getSp_setSp]
    refine ⟨⟨_, hexec false, hdest false, fun h => hsp false (.inr h), onlySp_pop s false ra v _, ?_⟩,
      ⟨_, hexec true, hdest true, hsp true, onlySp_pop s true ra v _, fun h => ?_, ?_⟩⟩
    · ext1 <;> simp [State.setStackDest]
    · exact (State.setLr_lr_of_alias _ v (by rwa [State.setSp_cfg])).trans (State.setSp_lr s _)
    · ext1 <;> simp
  · rw [exec, execPop, loadWord_of_unwritten hadm hnone, andThen_of_fault]

/-- Settles O47: the POP loads from the address the PUSH stored to. -/
theorem popAfterPushReturnsValue : Obligations.PopAfterPushReturnsValue := by
  intro s t link link' ra ra' h
  obtain ⟨u, hu, ht⟩ := andThen_next.1 h
  obtain ⟨hadm, rfl⟩ := storeWord_next.1 hu
  have hsp : t.getSp + 1 = s.getSp := by simp [ht]
  have hcfg : t.cfg = s.cfg := by simp [ht]
  have hload : loadWord t (t.getSp + 1) = .next (stackSource s link ra) := by
    rw [hsp]
    exact loadWord_of_stored (by simp [ht]) hcfg (by simp [ht]) hadm
  refine ⟨_, andThen_next.2 ⟨_, hload, rfl⟩, read_setStackDest _ link' ra' _, fun halias => ?_⟩
  rw [State.advance_getSp, getSp_setStackDest _ _ _ _ (by rwa [State.setSp_cfg, hcfg]), State.getSp_setSp, hsp]

end
